-- ==== Sys2Proof/Word.lean ====
section
/-! DEFINITION. The words of ADDRINC: bytes, the 128-bit buses, byte sequences of a fixed width
(spec 00_scope.md R9, R10; 10_state.md R20). -/

namespace Sys2Proof

/-- An 8-bit unsigned value, 0 to 255 (R9). -/
abbrev Byte := BitVec 8

/-- The value of a 128-bit bus, `din` or `dout` (R20). -/
abbrev Bus := BitVec 128

/-- A byte sequence of width `W`, index 0 the most significant byte (R10). -/
abbrev Bytes (W : Nat) := Vector Byte W

end Sys2Proof
end

