-- ==== Sys2Proof/Syntax.lean ====
section
/-! DEFINITION. The commands of ADDRINC (spec 30_encoding.md R44), what the host drives at a step
(R42, 20_memory.md R35), and the written forms of commands, addresses and networks (R48, R49;
42_host_generator.md R74, R75). -/

namespace Sys2Proof

/-- The family that `FAM` selects (10_state.md R15). -/
inductive Family where
  /-- `FAM` = 0: a 4-byte sequence. -/
  | ipv4
  /-- `FAM` = 1: a 16-byte sequence. -/
  | ipv6
  deriving DecidableEq, Repr

/-- One command. The operand of a load is the byte sequence it takes from `din` (R43); the bits of
`din` that a command ignores are no part of it (R46). A sequence of another length than 4 or 16
cannot be written (20_memory.md R31). -/
inductive Instr where
  /-- `NOP`: idle (R66). -/
  | nop
  /-- `LD4`: load a 4-byte sequence (R64). -/
  | ld4 (q : Bytes 4)
  /-- `LD16`: load a 16-byte sequence (R65). -/
  | ld16 (q : Bytes 16)
  /-- `INC`: increment the buffer in place (R61). -/
  | inc
  deriving DecidableEq, Repr

/-- What the block samples at one step: the input ports other than the clock (10_state.md R20,
20_memory.md R35). -/
structure PortInput where
  rst : Bool
  op : BitVec 2
  din : Bus
  deriving DecidableEq, Repr

/-- The one transition a step makes: the reset, or the command that `op` encodes (R35). -/
inductive Transition where
  | reset
  | command (i : Instr)
  deriving DecidableEq, Repr

/-- An address of either family, the family's width in bytes (42_host_generator.md R71, R79). -/
inductive Address where
  | ipv4 (q : Bytes 4)
  | ipv6 (q : Bytes 16)
  deriving DecidableEq, Repr

/-- An IPv4 address as written (R48, R49). -/
inductive Ipv4Text where
  /-- `a.b.c.d`, four decimal numbers. -/
  | dotted (a b c d : Nat)
  /-- `0x` and hex digits, most significant first. -/
  | hex (digits : List Nat)
  deriving DecidableEq, Repr

/-- An IPv6 address as written (R48, R49). -/
inductive Ipv6Text where
  /-- All groups separated by `:`. -/
  | groups (gs : List Nat)
  /-- The groups before and after the one `::`. -/
  | compressed (front back : List Nat)
  /-- `0x` and hex digits, most significant first. -/
  | hex (digits : List Nat)
  deriving DecidableEq, Repr

/-- One line of a command sequence (R48). `reset` is a step with `rst` = 1, not a command. -/
inductive Line where
  | nop
  | ld4 (t : Ipv4Text)
  | ld16 (t : Ipv6Text)
  | inc
  | reset
  deriving DecidableEq, Repr

/-- What CIDR text parses to: the address as written and the prefix length (R74, R75). -/
structure Cidr where
  addr : Address
  prefixLen : Nat
  deriving DecidableEq, Repr

end Sys2Proof
end

