-- ==== Sys2Proof/WellFormed.lean ====
section
/-! DEFINITION. Well-formedness of commands, written addresses, command lines and networks
(spec 30_encoding.md R46, R48, R49; 93_implementation_defined.md G1, G2). -/

namespace Sys2Proof

/-- Every command with every operand is legal: the opcode space is full (R46) and a load has nothing
to validate (R64, R65). The one thing that could be malformed, the length of a sequence, is in the
operand's type (R31). -/
def Instr.wf : Instr → Bool
  | .nop => true
  | .ld4 _ => true
  | .ld16 _ => true
  | .inc => true

/-- Dotted-quad numbers are 0 to 255; the hex form has 8 digits (R48, R49). -/
def Ipv4Text.wf : Ipv4Text → Bool
  | .dotted a b c d => decide (a ≤ 255) && decide (b ≤ 255) && decide (c ≤ 255) && decide (d ≤ 255)
  | .hex ds => decide (ds.length = 8) && ds.all fun d => decide (d < 16)

/-- Colon-hex has eight 16-bit groups, or fewer around one `::` that stands for at least one zero
group; the hex form has 32 digits (R48, R49). -/
def Ipv6Text.wf : Ipv6Text → Bool
  | .groups gs => decide (gs.length = 8) && gs.all fun g => decide (g < 65536)
  | .compressed front back =>
    decide (front.length + back.length < 8) && (front ++ back).all fun g => decide (g < 65536)
  | .hex ds => decide (ds.length = 32) && ds.all fun d => decide (d < 16)

/-- A line is well formed when its address is (R48). -/
def Line.wf : Line → Bool
  | .nop => true
  | .ld4 t => t.wf
  | .ld16 t => t.wf
  | .inc => true
  | .reset => true

/-- The width of an address in bits, `address_bits` (00_scope.md R7). -/
def Address.bits : Address → Nat
  | .ipv4 _ => 32
  | .ipv6 _ => 128

/-- The prefix length lies in 0 to `address_bits` (R75; PRESUMED by the spec's G2, log 10). -/
def Cidr.wf (c : Cidr) : Bool := decide (c.prefixLen ≤ c.addr.bits)

end Sys2Proof
end

