-- ==== Sys2Proof/Decode.lean ====
section
/-! DEFINITION. The family bit and the byte lanes of the buses (spec 10_state.md R15, R20), decoding (30_encoding.md R42 to
R47), the encoder, the opcode table's words, and the assembler of written command lines (R48, R49). -/

namespace Sys2Proof

/-- The value of `FAM` and of `fam_o` for a family: 0 = IPv4, 1 = IPv6 (R15). -/
def Family.bit : Family → BitVec 1
  | .ipv4 => 0
  | .ipv6 => 1

/-- The family that a value of `FAM` stands for (R15). -/
def Family.ofBit (b : BitVec 1) : Family := if b = 0 then .ipv4 else .ipv6

/-- `W`, the width in bytes of the sequence in `A` (R7, R15). -/
abbrev Family.width : Family → Nat
  | .ipv4 => 4
  | .ipv6 => 16

/-- Byte lane `i` of a bus, bits `[127-8*i : 120-8*i]` (R20). -/
def lane (v : Bus) (i : Nat) : Byte := v.extractLsb' (120 - 8 * i) 8

/-- The first `W` lanes of a bus as a sequence: lane `i` carries index `i` (R20, R43). -/
def lanes (W : Nat) (v : Bus) : Bytes W := Vector.ofFn fun i : Fin W => lane v i

/-- A bus with the first `k` bytes of `a` on their lanes and zero bits on the others. -/
def packFirst (a : Bytes 16) : (k : Nat) → k ≤ 16 → Bus
  | 0, _ => 0
  | k + 1, h => packFirst a k (Nat.le_of_succ_le h) ||| (a[k].setWidth 128 <<< (120 - 8 * k))

/-- The bus that carries `a[i]` on lane `i` (R20). -/
def pack (a : Bytes 16) : Bus := packFirst a 16 (Nat.le_refl 16)

/-- A 4-byte sequence on lanes 0 to 3 and 0x00 on lanes 4 to 15, which is what an assembler drives
for `LD4` (R48). -/
def padLanes (q : Bytes 4) : Bytes 16 :=
  Vector.ofFn fun j : Fin 16 => if h : j.1 < 4 then q[j.1] else 0x00

/-- The decoder: the table of R44. It is total, needs no state, and `din` never changes which
command is selected (R45). Nothing is rejected: there is no reserved encoding (R46). -/
def decode (op : BitVec 2) (din : Bus) : Instr :=
  match op with
  | 0b00#2 => .nop
  | 0b01#2 => .ld4 (lanes 4 din)
  | 0b10#2 => .ld16 (lanes 16 din)
  | 0b11#2 => .inc

/-- The value of `op` for a command (R44). -/
def Instr.opcode : Instr → BitVec 2
  | .nop => 0b00
  | .ld4 _ => 0b01
  | .ld16 _ => 0b10
  | .inc => 0b11

/-- What an assembler drives on `din`: the sequence on its lanes, zeros on every ignored bit
(R43, R48; log 14). -/
def Instr.data : Instr → Bus
  | .nop => 0
  | .ld4 q => pack (padLanes q)
  | .ld16 q => pack q
  | .inc => 0

/-- The step at which the host presents a command: `rst` = 0, its opcode, its data (R42, R48). -/
def encode (i : Instr) : PortInput := { rst := false, op := i.opcode, din := i.data }

/-- The step a line `RESET` stands for: `rst` = 1; `op` and `din` are ignored (R48, R94). -/
def resetInput : PortInput := { rst := true, op := 0, din := 0 }

/-- A command seen as one 130-bit word `{op, din}`: `op` is bits [129:128] (R42). -/
def decodeWord (w : BitVec 130) : Instr := decode (w.extractLsb' 128 2) (w.extractLsb' 0 128)

/-- The 130-bit word `{op, din}` of a command (R42). -/
def encodeWord (i : Instr) : BitVec 130 := i.opcode ++ i.data

/-- The transition a step makes: the reset when `rst` = 1, whatever `op` and `din` hold, else the
command that `op` encodes (R35, R45, R94). -/
def PortInput.transition (x : PortInput) : Transition :=
  if x.rst then .reset else .command (decode x.op x.din)

/-- The step that presents a word of the opcode table: the table's bits are `op` alone, bits 1 and 0
(R42), so `din` is zero and no other bit counts (log 7). -/
def tableInput (_nbits w : Nat) : PortInput := { rst := false, op := BitVec.ofNat 2 w, din := 0 }

/-- The command the decoder reads from a word of the opcode table (log 7). -/
def decodeTableWord (nbits w : Nat) : Option Instr :=
  some (decode (tableInput nbits w).op (tableInput nbits w).din)

/-! Written addresses (R48, R49; the reading is general knowledge, G1: log 12). -/

/-- Byte `i` of hex digits written most significant first: digits `2 i` and `2 i + 1`. -/
def hexByte (ds : List Nat) (i : Nat) : Byte :=
  BitVec.ofNat 8 (16 * ds.getD (2 * i) 0 + ds.getD (2 * i + 1) 0)

/-- Byte `i` of 16-bit groups: group `i / 2`, its high byte when `i` is even, else its low byte. -/
def groupByte (gs : List Nat) (i : Nat) : Byte :=
  if i % 2 = 0 then BitVec.ofNat 8 (gs.getD (i / 2) 0 / 256) else BitVec.ofNat 8 (gs.getD (i / 2) 0 % 256)

/-- The 4-byte sequence a written IPv4 address stands for (R49). -/
def Ipv4Text.bytes : Ipv4Text → Bytes 4
  | .dotted a b c d => #v[BitVec.ofNat 8 a, BitVec.ofNat 8 b, BitVec.ofNat 8 c, BitVec.ofNat 8 d]
  | .hex ds => Vector.ofFn fun i : Fin 4 => hexByte ds i

/-- The groups around `::` with as many zero groups as bring the count to eight (R49). -/
def expandGroups (front back : List Nat) : List Nat :=
  front ++ List.replicate (8 - (front.length + back.length)) 0 ++ back

/-- The 16-byte sequence a written IPv6 address stands for (R49). -/
def Ipv6Text.bytes : Ipv6Text → Bytes 16
  | .groups gs => Vector.ofFn fun i : Fin 16 => groupByte gs i
  | .compressed front back => Vector.ofFn fun i : Fin 16 => groupByte (expandGroups front back) i
  | .hex ds => Vector.ofFn fun i : Fin 16 => hexByte ds i

/-- The step a line stands for. -/
def Line.input : Line → PortInput
  | .nop => encode .nop
  | .ld4 t => encode (.ld4 t.bytes)
  | .ld16 t => encode (.ld16 t.bytes)
  | .inc => encode .inc
  | .reset => resetInput

/-- The assembler: a well-formed line is one step; an ill-formed one has none (R48, R50: there are no
pseudo-instructions). -/
def assemble (l : Line) : Option PortInput := if l.wf then some l.input else none

/-- A command sequence, one line a step, top to bottom; it has no steps when a line is ill-formed
(R48). -/
def assembleAll : List Line → Option (List PortInput)
  | [] => some []
  | l :: ls =>
    match assemble l, assembleAll ls with
    | some x, some xs => some (x :: xs)
    | _, _ => none

end Sys2Proof
end

