-- ==== Sys2Proof/Machine/Operands.lean ====
section
/-! DEFINITION. The operand forms: the sequence `A[0..W-1]` of the current width inside the 16 cells
(spec 10_state.md R14, R17), and the number a sequence stands for (00_scope.md R10). -/

namespace Sys2Proof.Machine

/-- The first `k` bytes of `a` read as a big-endian unsigned number. -/
def valFirst {W : Nat} (a : Bytes W) : (k : Nat) → k ≤ W → Nat
  | 0, _ => 0
  | k + 1, h => valFirst a k (Nat.le_of_succ_le h) * 256 + a[k].toNat

/-- `val_W(a)`, the big-endian unsigned value of a sequence (R10, R28). -/
def val {W : Nat} (a : Bytes W) : Nat := valFirst a W (Nat.le_refl W)

/-- `bytes_W(n)`, the sequence of width `W` whose value is `n`, for `n < 2^(8*W)` (R10). -/
def bytesOf (W n : Nat) : Bytes W :=
  Vector.ofFn fun i : Fin W => BitVec.ofNat 8 (n / 256 ^ (W - 1 - i.1))

/-- Both widths fit in the cells (R7). -/
theorem width_le (f : Family) : f.width ≤ 16 := by cases f <;> decide

/-- `A[0..W-1]` as a sequence of width `W` (R14). -/
def readSeq (W : Nat) (h : W ≤ 16) (a : Bytes 16) : Bytes W :=
  Vector.ofFn fun i : Fin W => a[i.1]'(Nat.lt_of_lt_of_le i.2 h)

/-- `A[0..W-1] <- q`: the cells from `W` on keep what they hold (R61). -/
def writeSeq {W : Nat} (q : Bytes W) (a : Bytes 16) : Bytes 16 :=
  Vector.ofFn fun j : Fin 16 => if h : j.1 < W then q[j.1] else a[j.1]

/-- Sixteen cells of 0x00. -/
def zeroCells : Bytes 16 := Vector.ofFn fun _ => 0x00

end Sys2Proof.Machine
end

