-- ==== Sys2Proof/Config.lean ====
section
/-! DEFINITION. The free values: what the spec leaves without a value (10_state.md R26,
70_reset_and_hazards.md R106, R111) is an opaque constant here, so that nothing can be proved of it.
The parameters of R7 have one value each on this hardware and stand in the types: a byte is 8 bits,
the cells are 16, the widths are 4 and 16 (`Family.width`). -/

namespace Sys2Proof.Config

/-- What cell `i` of `A` holds after the reset at moment `m` (R26, R105, R106: no value, never a
default). DESIGN CHOICE, log 3. -/
opaque cellAfterReset : (m : Nat) → (i : Nat) → Byte

/-- What `FAM` holds after the reset at moment `m` (R26, R105, R106: no value, never a default).
DESIGN CHOICE, log 3. -/
opaque famAfterReset : (m : Nat) → BitVec 1

/-- What read number `k` of `dout` at moment `m` gives while `LOADED` = 0 (R111: any 128 bits, not
necessarily the same twice). DESIGN CHOICE, log 5. -/
opaque doutBeforeLoad : (m : Nat) → (k : Nat) → Bus

/-- What read number `k` of `fam_o` at moment `m` gives while `LOADED` = 0 (R111: any bit).
DESIGN CHOICE, log 5. -/
opaque famOBeforeLoad : (m : Nat) → (k : Nat) → BitVec 1

end Sys2Proof.Config
end

