-- ==== Sys2Proof/Machine/State.lean ====
section
/-! DEFINITION. The state of the block, why a step can stop, and the state after reset
(spec 10_state.md R13 to R17, R26; 60_exceptions.md R90; 70_reset_and_hazards.md R105, R110). -/

namespace Sys2Proof.Machine

/-- The block raises no exception, for any command, in any state, for any data (R90): no step of the
model ends in a fault, and there is no fault to name. Nothing raises one. -/
inductive Fault : Type
  deriving DecidableEq, Repr

/-- Why a step has no next state. -/
inductive Refusal where
  /-- The host's fixed name for a command without a meaning. No arm uses it; safe. -/
  | notModelled (mnemonic : String)
  /-- `INC` at a step in which `LOADED` = 0: the spec gives it no meaning and a model must refuse it
  (R110, D10). Raised by `execInc`; safe. -/
  | incBeforeLoad
  /-- The host has presented no step: the run has ended (R118). Raised by `step`; safe (log 2). -/
  | noStepPresented
  deriving DecidableEq, Repr

/-- The block, and the steps presented to it. -/
structure State where
  /-- The buffer register `A`, 16 byte cells (R14). -/
  a : Bytes 16
  /-- The family bit `FAM` (R15). -/
  fam : Family
  /-- The loaded bit `LOADED` (R16). -/
  loaded : Bool
  /-- The model's own: the steps the host has chosen to present and the block has not taken, the
  next one first (R35, R118; log 1). -/
  inputs : List PortInput
  /-- The model's own: the moment, the argument of the free values (log 4). -/
  draws : Nat
  deriving DecidableEq, Repr

/-- The state right after power-on, which is a reset (R26, R105): `LOADED` = 0, and `A` and `FAM` hold
free values, which no command and no output reads (R106; log 3). Nothing is presented yet (log 2). -/
def State.reset : State where
  a := Vector.ofFn fun i : Fin 16 => Config.cellAfterReset 0 i
  fam := Family.ofBit (Config.famAfterReset 0)
  loaded := false
  inputs := []
  draws := 0

end Sys2Proof.Machine
end

