-- ==== Sys2Proof/Machine/Ops.lean ====
section
/-! DEFINITION. The named operations over the block's registers: the view of the buffer, the outputs,
loading, taking a step's inputs, the reset transition, sequencing of outcomes (spec 10_state.md R20 to
R27; 70_reset_and_hazards.md R105, R106, R111). Taking an exception and returning from one do not
exist on this hardware (60_exceptions.md R90, R95, R96), so no operation stands for them. -/

namespace Sys2Proof.Machine

/-- A loaded buffer: the family and the 16 cells. -/
structure Buffer where
  fam : Family
  cells : Bytes 16
  deriving DecidableEq, Repr

/-- The buffer as the spec gives it: ABSENT while `LOADED` = 0 (R16, R106), else `FAM` and `A`. With
`LOADED` = whether it is present, this is all the state the spec gives the block (R13). -/
def State.buffer? (s : State) : Option Buffer := if s.loaded then some ⟨s.fam, s.a⟩ else none

/-- The address in the buffer, `A[0..W-1]` with its family (R14). -/
def Buffer.address (b : Buffer) : Address :=
  match b.fam with
  | .ipv4 => .ipv4 (readSeq 4 (by decide) b.cells)
  | .ipv6 => .ipv6 (readSeq 16 (by decide) b.cells)

/-- Output port `loaded_o` (R21). -/
def State.loadedO (s : State) : BitVec 1 := if s.loaded then 1 else 0

/-- Read number `k` of output port `fam_o`: `FAM`, and before a load a free value (R21, R111). -/
def State.famO (s : State) (k : Nat) : BitVec 1 :=
  if s.loaded then s.fam.bit else Config.famOBeforeLoad s.draws k

/-- Read number `k` of output port `dout`: the cells on their lanes, and before a load a free value
(R21, R111). -/
def State.dout (s : State) (k : Nat) : Bus :=
  if s.loaded then pack s.a else Config.doutBeforeLoad s.draws k

/-- A host's sample of the address: `fam_o`, and lanes 0 to W-1 of `dout` (R51, R80). It is a value of
the host's own and does not follow the buffer (R83). -/
def State.sample (s : State) (k : Nat) : Address :=
  match Family.ofBit (s.famO k) with
  | .ipv4 => .ipv4 (lanes 4 (s.dout k))
  | .ipv6 => .ipv6 (lanes 16 (s.dout k))

/-- A load replaces the whole buffer and the family and sets `LOADED`, in one step (R32, R67). -/
def State.load (s : State) (f : Family) (cells : Bytes 16) : State :=
  { s with a := cells, fam := f, loaded := true }

/-- New contents of the cells, all else as it was (R41). -/
def State.setCells (s : State) (cells : Bytes 16) : State := { s with a := cells }

/-- The reset transition: `LOADED` <- 0, and `A` and `FAM` lose their value: what they hold from then
on is a free value of this moment (R105, R106; log 3). -/
def State.clear (s : State) : State :=
  { s with
    a := Vector.ofFn fun i : Fin 16 => Config.cellAfterReset s.draws i
    fam := Family.ofBit (Config.famAfterReset s.draws)
    loaded := false }

/-- The host presents a step before the others it has presented (R35). -/
def State.present (s : State) (x : PortInput) : State := { s with inputs := x :: s.inputs }

/-- The step's inputs are taken: what is left is presented to the later steps, and the moment moves on
(R35; log 1, log 4). -/
def State.advance (s : State) (rest : List PortInput) : State :=
  { s with inputs := rest, draws := s.draws + 1 }

/-- What the next step samples: its transition, and the state the transition starts from. There is
none when the host has presented no step (R35, R118; log 2). -/
def State.fetch (s : State) : Option (Transition × State) :=
  match s.inputs with
  | [] => none
  | x :: rest => some (x.transition, s.advance rest)

/-- Go on from a next state; a fault or a refusal ends the run. -/
def andThen {σ τ φ ρ : Type} (o : Host.Outcome σ φ ρ) (f : σ → Host.Outcome τ φ ρ) :
    Host.Outcome τ φ ρ :=
  match o with
  | .next s => f s
  | .fault r => .fault r
  | .refused r => .refused r

end Sys2Proof.Machine
end

