-- ==== Sys2Proof/Machine/Increment.lean ====
section
/-! DEFINITION. The increment primitive `Inc_W` and the meaning of `INC` (spec 40_increment.md R54 to
R63). -/

namespace Sys2Proof.Machine

/-- The document's scan, with the bytes of index `k` and above visited already: a byte of 0xFF wraps
to 0x00 and the carry goes to the next more significant byte; the first other byte absorbs it and no
further byte is visited (R54). -/
def incScan {W : Nat} : (k : Nat) → k ≤ W → Bytes W → Bytes W
  | 0, _, a => a
  | k + 1, h, a =>
    if a[k] = 0xFF then incScan k (Nat.le_of_succ_le h) (a.set k 0x00) else a.set k (a[k] + 1)

/-- `Inc_W(a)`: the scan from the last index, for every width (R54; the block uses 4 and 16; log 11). -/
def inc {W : Nat} (a : Bytes W) : Bytes W := incScan W (Nat.le_refl W) a

/-- `A[0..W-1] <- Inc_W(A[0..W-1])` with the width that `FAM` selects (R61, R63). -/
def State.incremented (s : State) : State :=
  s.setCells (writeSeq (inc (readSeq s.fam.width (width_le s.fam) s.a)) s.a)

/-- `INC` (R61). While `LOADED` = 0 it is refused: the step has no next state (R110). -/
def execInc (s : State) : Host.Outcome State Fault Refusal :=
  if s.loaded then .next s.incremented else .refused .incBeforeLoad

end Sys2Proof.Machine
end

