-- ==== Sys2Proof/Machine/Load.lean ====
section
/-! DEFINITION. The meanings of the loads and of idle, `LD4`, `LD16`, `NOP` (spec 41_load_idle.md R64
to R67). -/

namespace Sys2Proof.Machine

/-- `LD4`: cells 0 to 3 from the sequence, cells 4 to 15 to 0x00, `FAM` <- 0, `LOADED` <- 1; legal in
every state (R64). -/
def execLd4 (q : Bytes 4) (s : State) : Host.Outcome State Fault Refusal :=
  .next (s.load .ipv4 (writeSeq q zeroCells))

/-- `LD16`: all cells from the sequence, `FAM` <- 1, `LOADED` <- 1; legal in every state (R65). -/
def execLd16 (q : Bytes 16) (s : State) : Host.Outcome State Fault Refusal :=
  .next (s.load .ipv6 q)

/-- `NOP`: no state is read, no state is written (R66). -/
def execNop (s : State) : Host.Outcome State Fault Refusal := .next s

end Sys2Proof.Machine
end

