-- ==== Sys2Proof/Machine/Dispatch.lean ====
section
/-! DEFINITION. The one dispatch: each command to its meaning (spec 30_encoding.md R44). -/

namespace Sys2Proof.Machine

def exec (i : Instr) (s : State) : Host.Outcome State Fault Refusal :=
  match i with
  | .nop => Sys2Proof.Machine.execNop s
  | .ld4 q => Sys2Proof.Machine.execLd4 q s
  | .ld16 q => Sys2Proof.Machine.execLd16 q s
  | .inc => Sys2Proof.Machine.execInc s

end Sys2Proof.Machine
end

