-- ==== Sys2Proof/Machine/Step.lean ====
section
/-! DEFINITION. One step of the block: one rising edge of `clk` (spec 20_memory.md R35). -/

namespace Sys2Proof.Machine

/-- A step takes the next of the presented inputs and makes exactly one transition: the reset when
`rst` = 1, else the command that `op` encodes (R35, R94). With nothing presented there is no step
(R118; log 2). -/
def step (s : State) : Host.Outcome State Fault Refusal :=
  match s.fetch with
  | none => .refused .noStepPresented
  | some (.reset, t) => .next t.clear
  | some (.command i, t) => exec i t

/-- The opcode table's word presented as the very next step (log 2, log 7). -/
def State.withFetchWord (s : State) (nbits w : Nat) : State := s.present (tableInput nbits w)

end Sys2Proof.Machine
end

