-- ==== Sys2Proof/Machine/Flags.lean ====
section
/-! DEFINITION. The block has NO flags, condition codes or carry output (spec 10_state.md R18): no
command writes a flag and no state holds one. What stands here is the carry chain inside one
increment (40_increment.md R57), from which a flag would be made; `c[0]` is dropped (R58). -/

namespace Sys2Proof.Machine

/-- The carry that leaves the last `d` bytes of `a`: 1 for none of them (the added one), then
`(a[i] + c[i+1]) div 256` (R57). -/
def carryAbove {W : Nat} (a : Bytes W) : (d : Nat) → d ≤ W → Nat
  | 0, _ => 1
  | d + 1, h => (a[W - (d + 1)].toNat + carryAbove a d (Nat.le_of_succ_le h)) / 256

/-- `c[i]`, for `i` from 0 to `W` (R57). -/
def carry {W : Nat} (a : Bytes W) (i : Nat) : Nat := carryAbove a (W - i) (Nat.sub_le W i)

/-- The increment computed by the carry chain, every byte at once (R57). -/
def incByCarries {W : Nat} (a : Bytes W) : Bytes W :=
  Vector.ofFn fun i : Fin W => BitVec.ofNat 8 ((a[i].toNat + carry a (i.1 + 1)) % 256)

end Sys2Proof.Machine
end

