-- ==== Sys2Proof/Machine/Run.lean ====
section
/-! DEFINITION. A run: the finite sequence of steps a host chooses to present
(spec 70_reset_and_hazards.md R118; 30_encoding.md R48). -/

namespace Sys2Proof.Machine

/-- The host presents one command and the block takes the step. -/
def command (i : Instr) (s : State) : Host.Outcome State Fault Refusal := step (s.present (encode i))

/-- The host presents the steps one after another; the run ends when it stops presenting (R118). A
refused step ends the run without an end state (R110). -/
def runSteps : List PortInput → State → Host.Outcome State Fault Refusal
  | [], s => .next s
  | x :: xs, s => andThen (step (s.present x)) (runSteps xs)

end Sys2Proof.Machine
end

