-- ==== Sys2Proof/Machine/Generator.lean ====
section
/-! DEFINITION. The host software around the block: the document's Network Generator carried out with
the block's commands (spec 42_host_generator.md R70 to R89; log 10). It adds no state to the block:
`family` and `current` are `FAM` and `A`, `remaining` is the host's. -/

namespace Sys2Proof.Machine

/-- The one error, raised only by construction: it describes the malformed input (R74, R91). -/
inductive ParseError where
  | malformed (text : String)
  deriving DecidableEq, Repr

/-- The generator: the block it uses and its count of addresses not yet emitted (R71, R73). -/
structure Generator where
  block : State
  remaining : Nat
  deriving DecidableEq, Repr

/-- Active while `remaining` > 0, else Exhausted (R81). -/
def Generator.active (g : Generator) : Bool := decide (0 < g.remaining)

/-- The first `p` of `8*W` bits kept, the others cleared (R76). -/
def maskedTo {W : Nat} (p : Nat) (a : Bytes W) : Bytes W :=
  bytesOf W (val a - val a % 2 ^ (8 * W - p))

/-- The network's base address (R75, R76). -/
def networkBase (c : Cidr) : Address :=
  match c.addr with
  | .ipv4 q => .ipv4 (maskedTo c.prefixLen q)
  | .ipv6 q => .ipv6 (maskedTo c.prefixLen q)

/-- The number of addresses of the network, `2^(bits - p)` (R75). -/
def networkCount (c : Cidr) : Nat := 2 ^ (c.addr.bits - c.prefixLen)

/-- The command that loads an address (R77). -/
def loadOf : Address → Instr
  | .ipv4 q => .ld4 q
  | .ipv6 q => .ld16 q

/-- Construction after a successful parse: load the masked base, then count (R75, R77). -/
def construct (c : Cidr) (s : State) : Host.Outcome Generator Fault Refusal :=
  andThen (command (loadOf (networkBase c)) s) fun b => .next { block := b, remaining := networkCount c }

/-- `NewGenerator(cidr)` over a block: a ParseError, with no generator and the block untouched, when the
text is not valid CIDR; else the construction. The parser is a parameter: the source gives no grammar
(R74, U8). -/
def newGenerator (parse : String → Option Cidr) (text : String) (s : State) :
    Except ParseError (Host.Outcome Generator Fault Refusal) :=
  match parse text with
  | none => .error (.malformed text)
  | some c => if c.wf then .ok (construct c s) else .error (.malformed text)

/-- `Next()`: the count is tested first (R82); when it is 0 the sentinel is returned and nothing
changes (R78); else the sample is taken before one `INC`, then the count goes down (R79, R80). -/
def Generator.next (g : Generator) : Host.Outcome (Option Address × Generator) Fault Refusal :=
  if g.remaining = 0 then .next (none, g)
  else andThen (command .inc g.block) fun b =>
    .next (some (g.block.sample 0), { block := b, remaining := g.remaining - 1 })

/-- What `n` calls of `Next` return, in order, and the generator after them. -/
def Generator.nextCalls : Nat → Generator → Host.Outcome (List (Option Address) × Generator) Fault Refusal
  | 0, g => .next ([], g)
  | n + 1, g => andThen g.next fun r => andThen (Generator.nextCalls n r.2) fun rs =>
      .next (r.1 :: rs.1, rs.2)

/-- The number an address stands for (R10). -/
def addressValue : Address → Nat
  | .ipv4 q => val q
  | .ipv6 q => val q

/-- The address `k` above an address, modulo the family's modulus: `bytes_W((val_W(b) + k) mod 2^(8*W))`
(R84, R86). -/
def addressAfter (k : Nat) : Address → Address
  | .ipv4 q => .ipv4 (bytesOf 4 ((val q + k) % 2 ^ 32))
  | .ipv6 q => .ipv6 (bytesOf 16 ((val q + k) % 2 ^ 128))

end Sys2Proof.Machine
end

