-- ==== Sys2Proof/Safety.lean ====
section
/-! DEFINITION. What a safe run is: one with an end state; and the discipline a host owes the block,
load before increment (spec 70_reset_and_hazards.md R107, R110, R118). -/

namespace Sys2Proof.Machine

/-- The run has an end state: no step of it is refused (R110, R118). -/
def SafeRun (xs : List PortInput) (s : State) : Prop := ∃ t, runSteps xs s = .next t

/-- The host's discipline over a sequence of steps, `l` saying whether the buffer is loaded: after a
reset no `INC` before a load (R107). -/
def disciplined : (l : Bool) → List PortInput → Bool
  | _, [] => true
  | l, x :: xs =>
    match x.transition with
    | .reset => disciplined false xs
    | .command .nop => disciplined l xs
    | .command (.ld4 _) => disciplined true xs
    | .command (.ld16 _) => disciplined true xs
    | .command .inc => l && disciplined l xs

/-- What a run leaves as far as the spec gives it: the buffer of its end state, absent while
`LOADED` = 0; none when the run has no end state (R106, R110, R118). -/
def endBuffer : Host.Outcome State Fault Refusal → Option (Option Buffer)
  | .next t => some t.buffer?
  | .fault _ => none
  | .refused _ => none

/-- The step presents a command other than `NOP`, or is a reset (R66). -/
def stepMatters (x : PortInput) : Bool := decide (x.transition ≠ .command .nop)

/-- Cells 4 to 15 hold 0x00 while a 4-byte sequence is loaded (10_state.md R17): the invariant of the
block's registers. -/
def State.UpperCellsZero (s : State) : Prop :=
  s.loaded = true → s.fam = .ipv4 → ∀ j : Fin 16, 4 ≤ j.1 → s.a[j] = 0x00

end Sys2Proof.Machine
end

