-- ==== Sys2Proof/Certificates/Slice0/Obligations.lean ====
section
/-! DEFINITION. The statements about ADDRINC. Each docstring names the rules of spec/ it formalises. A
statement that rests on a choice of the model's names the log entry. -/

open Sys2Proof Sys2Proof.Machine

/-! ## Encoding -/

/-- R45: every value of `op` is a command, known from `op` alone; `din` never changes which command is
selected; at a step with `rst` = 1 there is no command, whatever `op` and `din` hold. -/
def Obligations.DecodingIsTheTableOfFourOpcodes : Prop :=
  (∀ din, decode 0b00 din = .nop) ∧ (∀ din, ∃ q, decode 0b01 din = .ld4 q) ∧
  (∀ din, ∃ q, decode 0b10 din = .ld16 q) ∧ (∀ din, decode 0b11 din = .inc) ∧
  (∀ op din, (decode op din).opcode = op) ∧
  (∀ x : PortInput, x.rst = false → x.transition = .command (decode x.op x.din)) ∧
  (∀ x : PortInput, x.rst = true → x.transition = .reset)

/-- R43: the operand of a load is the byte sequence on its lanes, lane `i` at index `i`; `LD4` ignores
bus bits [95:0]; `NOP` and `INC` have no operand. -/
def Obligations.OperandsAreTheByteLanes : Prop :=
  (∀ din, ∃ q : Bytes 4, decode 0b01 din = .ld4 q ∧
    ∀ (i : Nat) (h : i < 4), (q[i]).toNat = din.toNat / 2 ^ (120 - 8 * i) % 2 ^ 8) ∧
  (∀ din din' : Bus, din.toNat / 2 ^ 96 = din'.toNat / 2 ^ 96 → decode 0b01 din = decode 0b01 din') ∧
  (∀ din, ∃ q : Bytes 16, decode 0b10 din = .ld16 q ∧
    ∀ (i : Nat) (h : i < 16), (q[i]).toNat = din.toNat / 2 ^ (120 - 8 * i) % 2 ^ 8) ∧
  (∀ din, decode 0b00 din = .nop) ∧ (∀ din, decode 0b11 din = .inc)

/-- R30 (with R20): lane `i` is bus bits [127-8*i : 120-8*i], and a bus read as one unsigned number is
`val_W` of the sequence on it, for both widths; packing puts byte `i` back on lane `i`. -/
def Obligations.BusNumberIsSequenceValue : Prop :=
  (∀ (v : Bus) (i : Nat), i < 16 → (lane v i).toNat = v.toNat / 2 ^ (120 - 8 * i) % 2 ^ 8) ∧
  (∀ v : Bus, val (lanes 16 v) = v.toNat) ∧ (∀ v : Bus, val (lanes 4 v) = v.toNat / 2 ^ 96) ∧
  (∀ a : Bytes 16, (pack a).toNat = val a ∧ lanes 16 (pack a) = a)

/-- The step that presents a command is no reset and decodes to that command, and so does its 130-bit
word `{op, din}` (R42): no bit of an operand is dropped. -/
def Obligations.DecodeOfEncodeIsTheCommand : Prop :=
  ∀ i : Instr, i.wf = true →
    (encode i).transition = .command i ∧ decode (encode i).op (encode i).din = i ∧
    decodeWord (encodeWord i) = i

/-- Encoding what was decoded gives the same `op`, and the same `din` on every bit the command uses. On
the bits it ignores (R43, R46) the model's encoder drives zeros, which is the model's choice (log 14). -/
def Obligations.EncodeOfDecodeKeepsUsedBits : Prop :=
  ∀ (op : BitVec 2) (din : Bus),
    (encode (decode op din)).rst = false ∧ (encode (decode op din)).op = op ∧
    (encode (decode op din)).din =
      (if op = 0b01 then din &&& 0xFFFFFFFF000000000000000000000000 else if op = 0b10 then din else 0)

/-- Words written out from the encodings of the spec (95_test_vectors.md B1, S6, B2, V14) decode to the
commands they stand for. -/
def Obligations.WrittenWordsDecode : Prop :=
  decode 0b01 0xC0A86401DEADBEEF0123456789ABCDEF = .ld4 #v[0xC0, 0xA8, 0x64, 0x01] ∧
  decode 0b10 0xFE8000000000000000000000FFFFFFFF =
    .ld16 #v[0xFE, 0x80, 0, 0, 0, 0, 0, 0, 0, 0, 0, 0, 0xFF, 0xFF, 0xFF, 0xFF] ∧
  decode 0b00 0xFFFFFFFFFFFFFFFFFFFFFFFFFFFFFFFF = .nop ∧
  decode 0b11 0xFFFFFFFFFFFFFFFFFFFFFFFFFFFFFFFF = .inc

/-- The program lines of 30_encoding.md section 5: a well-formed line is one step; a command line presents
its command with the bytes its address stands for, `RESET` is a step with `rst` = 1. Which lines are
ill-formed, and that such a line, and a program with one, has no step, is the model's choice and no rule of
the spec: the spec says nothing of ill-formed lines, and what is ill-formed follows the PRESUMED reading of
the address notations (log 12). -/
def Obligations.AssembledLineIsItsTransition : Prop :=
  (∀ t : Ipv4Text, t.wf = true →
    (assemble (.ld4 t)).map PortInput.transition = some (.command (.ld4 t.bytes))) ∧
  (∀ t : Ipv6Text, t.wf = true →
    (assemble (.ld16 t)).map PortInput.transition = some (.command (.ld16 t.bytes))) ∧
  (assemble .nop).map PortInput.transition = some (.command .nop) ∧
  (assemble .inc).map PortInput.transition = some (.command .inc) ∧
  (assemble .reset).map PortInput.transition = some .reset ∧
  (∀ l : Line, l.wf = false → assemble l = none) ∧
  (∀ ls : List Line, (∀ l ∈ ls, l.wf = true) → assembleAll ls = some (ls.map Line.input)) ∧
  (∀ (l : Line) (ls : List Line), l ∈ ls → l.wf = false → assembleAll ls = none)

/-- R49: the value of a written address. A dotted-quad's bytes are its numbers, a group's high byte comes
first, `::` stands for the zero groups that bring the count to eight, and hex digits are the value. -/
def Obligations.WrittenAddressHasItsValue : Prop :=
  (∀ a b c d, (Ipv4Text.dotted a b c d).wf = true →
    val (Ipv4Text.dotted a b c d).bytes = ((a * 256 + b) * 256 + c) * 256 + d) ∧
  (∀ ds, (Ipv4Text.hex ds).wf = true →
    val (Ipv4Text.hex ds).bytes = ds.foldl (fun n d => n * 16 + d) 0) ∧
  (∀ gs, (Ipv6Text.groups gs).wf = true →
    val (Ipv6Text.groups gs).bytes = gs.foldl (fun n g => n * 65536 + g) 0) ∧
  (∀ front back, (Ipv6Text.compressed front back).wf = true →
    val (Ipv6Text.compressed front back).bytes =
      (front ++ List.replicate (8 - (front.length + back.length)) 0 ++ back).foldl
        (fun n g => n * 65536 + g) 0) ∧
  (∀ ds, (Ipv6Text.hex ds).wf = true →
    val (Ipv6Text.hex ds).bytes = ds.foldl (fun n d => n * 16 + d) 0)

/-! ## Sequences and the increment primitive -/

/-- R10: `val_W` is the positional sum with base 256, index 0 most significant, in the range 0 to
2^(8*W) - 1, and `bytes_W` is its inverse. -/
def Obligations.ValueAndBytesAreInverse : Prop :=
  ∀ W : Nat, 0 < W →
    (∀ a : Bytes W, val a = ∑ i : Fin W, (a[i]).toNat * 256 ^ (W - 1 - i.1)) ∧
    (∀ a : Bytes W, val a < 2 ^ (8 * W) ∧ bytesOf W (val a) = a) ∧
    (∀ n, n < 2 ^ (8 * W) → val (bytesOf W n) = n)

/-- R55: the value law, which fixes `Inc_W`. -/
def Obligations.IncrementAddsOneModuloWidth : Prop :=
  ∀ W : Nat, 0 < W → ∀ a : Bytes W,
    val (inc a) = (val a + 1) % 2 ^ (8 * W) ∧ inc a = bytesOf W ((val a + 1) % 2 ^ (8 * W))

/-- R56: the closed form by the number `k` of trailing 0xFF bytes, and how many bytes change. -/
def Obligations.IncrementClosedForm : Prop :=
  ∀ W : Nat, 0 < W → ∀ (a : Bytes W) (k : Nat), k ≤ W →
    (∀ (j : Nat) (h : j < W), W ≤ j + k → a[j] = 0xFF) →
    (∀ h : k < W, a[W - 1 - k] ≠ 0xFF) →
      (k = W → ∀ (j : Nat) (h : j < W), (inc a)[j] = 0x00) ∧
      (k < W → ∀ (j : Nat) (h : j < W),
        (j < W - 1 - k → (inc a)[j] = a[j]) ∧
        (j = W - 1 - k → (inc a)[j].toNat = a[j].toNat + 1) ∧
        (W - 1 - k < j → (inc a)[j] = 0x00)) ∧
      ((Finset.univ.filter fun j : Fin W => (inc a)[j] ≠ a[j]).card = if k < W then k + 1 else W)

/-- R57: the carry chain gives the same result as the scan, and a carry is 1 exactly when all the bytes
from its index on are 0xFF. -/
def Obligations.IncrementIsTheCarryChain : Prop :=
  ∀ W : Nat, 0 < W → ∀ a : Bytes W,
    carry a W = 1 ∧ incByCarries a = inc a ∧
    ∀ (i : Nat) (h : i < W),
      carry a i = (a[i].toNat + carry a (i + 1)) / 256 ∧
      (inc a)[i].toNat = (a[i].toNat + carry a (i + 1)) % 256 ∧
      (carry a i = 0 ∨ carry a i = 1) ∧
      (carry a i = 1 ↔ carry a (i + 1) = 1 ∧ a[i] = 0xFF) ∧
      (carry a i = 1 ↔ ∀ (j : Nat) (hj : j < W), i ≤ j → a[j] = 0xFF)

/-- R58: a sequence of all 0xFF wraps to all 0x00, for the primitive at every width and for the block's
`INC`, which reports nothing: no other state changes. -/
def Obligations.AllOnesWrapsToZerosSilently : Prop :=
  (∀ W : Nat, 0 < W → inc (Vector.replicate W (0xFF : Byte)) = Vector.replicate W (0x00 : Byte)) ∧
  (∀ s : State, s.loaded = true →
    (∀ j : Fin 16, j.1 < s.fam.width → s.a[j] = 0xFF) →
    ∃ t, exec .inc s = .next t ∧ (∀ j : Fin 16, j.1 < s.fam.width → t.a[j] = 0x00) ∧
      (∀ j : Fin 16, s.fam.width ≤ j.1 → t.a[j] = s.a[j]) ∧
      t.fam = s.fam ∧ t.loaded = true ∧ t.inputs = s.inputs ∧ t.draws = s.draws)

/-- The consequence that 40_increment.md section 3 states of repeated increments: `n` applications add
`n` modulo the width's modulus. -/
def Obligations.RepeatedIncrementAddsTheCount : Prop :=
  ∀ W : Nat, 0 < W → ∀ (a : Bytes W) (n : Nat), inc^[n] a = bytesOf W ((val a + n) % 2 ^ (8 * W))

/-- The consequence that 40_increment.md section 3 states: `Inc_W` is a bijection, and 2^(8*W)
applications, and no smaller positive number of them, return the starting sequence. -/
def Obligations.IncrementIsAFullCycle : Prop :=
  ∀ W : Nat, 0 < W →
    Function.Bijective (inc : Bytes W → Bytes W) ∧
    ∀ a : Bytes W, inc^[2 ^ (8 * W)] a = a ∧ ∀ n, 0 < n → n < 2 ^ (8 * W) → inc^[n] a ≠ a

/-! ## The commands -/

/-- `NOP` completes in every state, including `LOADED` = 0, and changes nothing (41_load_idle.md). -/
def Obligations.NopAnswersTheSameState : Prop :=
  ∀ s : State, exec .nop s = .next s

/-- R64: `LD4` completes in every state with every operand; the result is stated of the operand and of
the lanes of `din`. -/
def Obligations.Ld4LoadsFourBytesAndZeroes : Prop :=
  (∀ (q : Bytes 4) (s : State), ∃ t, exec (.ld4 q) s = .next t ∧
    (∀ (i : Nat) (h : i < 4), t.a[i] = q[i]) ∧ (∀ j : Fin 16, 4 ≤ j.1 → t.a[j] = 0x00) ∧
    t.fam = .ipv4 ∧ t.loaded = true ∧ t.inputs = s.inputs ∧ t.draws = s.draws) ∧
  (∀ (din : Bus) (s : State), ∃ t, exec (decode 0b01 din) s = .next t ∧
    (∀ (i : Nat) (h : i < 4), t.a[i] = lane din i) ∧ (∀ j : Fin 16, 4 ≤ j.1 → t.a[j] = 0x00) ∧
    t.fam = .ipv4 ∧ t.loaded = true ∧ t.inputs = s.inputs ∧ t.draws = s.draws)

/-- R65: `LD16` completes in every state with every operand. -/
def Obligations.Ld16LoadsSixteenBytes : Prop :=
  (∀ (q : Bytes 16) (s : State), ∃ t, exec (.ld16 q) s = .next t ∧ t.a = q ∧
    t.fam = .ipv6 ∧ t.loaded = true ∧ t.inputs = s.inputs ∧ t.draws = s.draws) ∧
  (∀ (din : Bus) (s : State), ∃ t, exec (decode 0b10 din) s = .next t ∧
    (∀ j : Fin 16, t.a[j] = lane din j) ∧ t.fam = .ipv6 ∧ t.loaded = true ∧
    t.inputs = s.inputs ∧ t.draws = s.draws)

/-- R61: `INC` completes whenever the buffer is loaded: `A[0..W-1]` is incremented in place and nothing
else changes. While it is not loaded `INC` is refused. -/
def Obligations.IncIncrementsTheBufferInPlace : Prop :=
  ∀ s : State,
    (s.loaded = true → ∃ t, exec .inc s = .next t ∧
      readSeq s.fam.width (width_le s.fam) t.a = inc (readSeq s.fam.width (width_le s.fam) s.a) ∧
      (∀ j : Fin 16, s.fam.width ≤ j.1 → t.a[j] = s.a[j]) ∧
      t.fam = s.fam ∧ t.loaded = true ∧ t.inputs = s.inputs ∧ t.draws = s.draws) ∧
    (s.loaded = false → exec .inc s = .refused .incBeforeLoad)

/-- R63: in 4-byte mode `INC` reads and writes cells 0 to 3 only and drops the carry out of cell 0; in
16-byte mode the carry out of the last four cells goes into cell 11. -/
def Obligations.IncStaysInsideItsWidth : Prop :=
  (∀ s t : State, s.fam = .ipv4 → exec .inc s = .next t →
    (∀ j : Fin 16, 4 ≤ j.1 → t.a[j] = s.a[j]) ∧ t.fam = .ipv4 ∧
    ((∀ j : Fin 16, j.1 < 4 → s.a[j] = 0xFF) → ∀ j : Fin 16, j.1 < 4 → t.a[j] = 0x00)) ∧
  (∀ s s' t t' : State, s.fam = .ipv4 → s'.fam = .ipv4 → (∀ j : Fin 16, j.1 < 4 → s.a[j] = s'.a[j]) →
    exec .inc s = .next t → exec .inc s' = .next t' → ∀ j : Fin 16, j.1 < 4 → t.a[j] = t'.a[j]) ∧
  (∀ s t : State, s.fam = .ipv6 → exec .inc s = .next t →
    t.fam = .ipv6 ∧
    ((∀ j : Fin 16, 12 ≤ j.1 → s.a[j] = 0xFF) → s.a[11] ≠ 0xFF →
      t.a[11] = s.a[11] + 1 ∧ (∀ j : Fin 16, 12 ≤ j.1 → t.a[j] = 0x00) ∧
      (∀ j : Fin 16, j.1 < 11 → t.a[j] = s.a[j])))

/-- R110: a step with `INC` while `LOADED` = 0 has no next state, and no run that contains it next has an
end state. -/
def Obligations.IncBeforeLoadHasNoNextState : Prop :=
  ∀ (s : State) (x : PortInput), s.loaded = false → x.rst = false → x.op = 0b11 →
    step (s.present x) = .refused .incBeforeLoad ∧ ∀ xs, ¬ SafeRun (x :: xs) s

/-- R67: each load completes, replaces the whole buffer and the family, and nothing of the earlier
registers survives; the family changes only by a load, never by `INC`. -/
def Obligations.LoadReplacesEverything : Prop :=
  (∀ (i : Instr) (s s' : State), (∃ q, i = .ld4 q) ∨ (∃ q, i = .ld16 q) →
    s.inputs = s'.inputs → s.draws = s'.draws → exec i s = exec i s' ∧ ∃ t, exec i s = .next t ∧ t.loaded = true) ∧
  (∀ (i : Instr) (s t : State), exec i s = .next t → t.fam ≠ s.fam →
    (∃ q, i = .ld4 q ∧ t.fam = .ipv4) ∨ (∃ q, i = .ld16 q ∧ t.fam = .ipv6))

/-- The frame of every command that answers a next state (10_state.md, the access table): the presented
steps and the moment are never changed by it, `NOP` changes no register, a load's cells depend on its
operand alone, `INC` changes no cell from `W` on, no family and no `LOADED`. -/
def Obligations.FrameOfEveryCommand : Prop :=
  ∀ (i : Instr) (s t : State), exec i s = .next t →
    t.inputs = s.inputs ∧ t.draws = s.draws ∧
    (i = .nop → t.a = s.a ∧ t.fam = s.fam ∧ t.loaded = s.loaded) ∧
    (∀ q, i = .ld4 q → ∀ j : Fin 16, t.a[j] = if h : j.1 < 4 then q[j.1] else 0x00) ∧
    (∀ q, i = .ld16 q → t.a = q) ∧
    (i = .inc → t.fam = s.fam ∧ t.loaded = s.loaded ∧ ∀ j : Fin 16, s.fam.width ≤ j.1 → t.a[j] = s.a[j])

/-! ## Steps, reset, outputs -/

/-- A step of a presented command runs the decoded command on the state whose presented steps are the
rest and whose moment is one later (20_memory.md section 4; `inputs` and `draws` are the model's own
fields, log 1 and log 4). -/
def Obligations.StepRunsTheDecodedCommand : Prop :=
  ∀ (s : State) (x : PortInput) (rest : List PortInput), s.inputs = x :: rest → x.rst = false →
    step s = exec (decode x.op x.din) { s with inputs := rest, draws := s.draws + 1 }

/-- Presenting an encoded command runs that very command, whatever else is presented; and a word of the
opcode table stored by `withFetchWord` runs what `decodeTableWord` reads (log 7). -/
def Obligations.PresentedCommandRunsItself : Prop :=
  (∀ (i : Instr) (s : State), command i s = exec i { s with draws := s.draws + 1 }) ∧
  (∀ (s : State) (nbits w : Nat), ∃ i, decodeTableWord nbits w = some i ∧
    i.opcode = BitVec.ofNat 2 w ∧
    step (s.withFetchWord nbits w) = exec i { s with draws := s.draws + 1 })

/-- R94: reset wins over the command at the same step: the step is the reset transition and `op` and
`din` are ignored, whatever they hold. -/
def Obligations.ResetWinsOverTheCommand : Prop :=
  ∀ (s : State) (op op' : BitVec 2) (din din' : Bus),
    step (s.present ⟨true, op, din⟩) = step (s.present ⟨true, op', din'⟩) ∧
    ∃ t, step (s.present ⟨true, op, din⟩) = .next t ∧ t.loaded = false ∧ t.buffer? = none ∧
      t.loadedO = 0 ∧ t.inputs = s.inputs

/-- R105: reset clears `LOADED`, leaves `A` and `FAM` with no value, and forgets what the block held
before (two blocks at one moment and with the same presented steps, the model's own fields, log 1 and
log 4, are the same after it, whatever their registers held); consecutive resets are the same as one; the state at power-on is a post-reset state. -/
def Obligations.ResetForgetsTheRegisters : Prop :=
  (∀ (s s' : State) (x : PortInput), x.rst = true → s.inputs = s'.inputs → s.draws = s'.draws →
    step (s.present x) = step (s'.present x)) ∧
  (∀ (s : State) (x : PortInput) (n : Nat), x.rst = true →
    ∃ t, runSteps (List.replicate (n + 1) x) s = .next t ∧ t.loaded = false ∧ t.buffer? = none ∧
      t.inputs = s.inputs) ∧
  State.reset.loaded = false ∧ State.reset.buffer? = none

/-- The table of 10_state.md section 6: after reset `LOADED` = 0 and `loaded_o` = 0, and `A`, `FAM`,
`fam_o` and `dout` have no value: the buffer is absent and every read of the two outputs is an
uninterpreted free value (log 3, log 5). That nothing is presented yet is the model's (log 2). -/
def Obligations.StateRightAfterReset : Prop :=
  State.reset.loaded = false ∧ State.reset.loadedO = 0 ∧ State.reset.buffer? = none ∧
  (∀ k, State.reset.dout k = Config.doutBeforeLoad State.reset.draws k ∧
    State.reset.famO k = Config.famOBeforeLoad State.reset.draws k) ∧
  State.reset.inputs = []

/-- The outputs of 10_state.md section 5: `loaded_o` is `LOADED`; on a loaded buffer `fam_o` is `FAM` and
lane `i` of `dout` is cell `i`, at every read, and a host's sample is the address in the buffer; in 4-byte
mode lanes 4 to 15 read 0x00 where the invariant of the cells holds. On every state that is not loaded,
right after reset or reset in mid-run, each read of `dout` and `fam_o` is an uninterpreted value
(70_reset_and_hazards.md section 3); that it is a constant of Config applied to the moment and the number of
the read is the model's form of it (log 4, log 5). -/
def Obligations.OutputsShowTheLoadedBuffer : Prop :=
  ∀ (s : State) (k : Nat),
    (s.loaded = false → s.loadedO = 0 ∧ s.dout k = Config.doutBeforeLoad s.draws k ∧
      s.famO k = Config.famOBeforeLoad s.draws k) ∧
    (s.loaded = true → s.loadedO = 1 ∧ s.famO k = s.fam.bit ∧
      (∀ i : Fin 16, lane (s.dout k) i = s.a[i]) ∧
      s.buffer?.map Buffer.address = some (s.sample k) ∧
      (s.UpperCellsZero → s.fam = .ipv4 → (s.dout k).toNat % 2 ^ 96 = 0))

/-- R90: no step ends in a fault, for any command, in any state, for any data; every command completes
but `INC` while `LOADED` = 0, which is no exception (R104) and is refused. -/
def Obligations.NoStepFaults : Prop :=
  (∀ (s : State) (r : Fault), step s ≠ .fault r) ∧
  (∀ (i : Instr) (s : State), (∃ t, exec i s = .next t) ∨
    (i = .inc ∧ s.loaded = false ∧ exec i s = .refused .incBeforeLoad))

/-- R16: a reset writes 0 to `LOADED`, a load writes 1, nothing else writes it; the buffer has a value
exactly while it is 1, and `loaded_o` shows it. -/
def Obligations.LoadedIsWrittenByLoadsAndResetOnly : Prop :=
  ∀ (s t : State) (x : PortInput), step (s.present x) = .next t →
    (x.transition = .reset → t.loaded = false) ∧
    (∀ q, x.transition = .command (.ld4 q) → t.loaded = true) ∧
    (∀ q, x.transition = .command (.ld16 q) → t.loaded = true) ∧
    (x.transition = .command .nop ∨ x.transition = .command .inc → t.loaded = s.loaded) ∧
    t.buffer?.isSome = t.loaded ∧ t.loadedO = BitVec.ofBool t.loaded

/-- The invariant of the cells (10_state.md, cells 4 to 15 in 4-byte mode) holds right after reset. -/
def Obligations.UpperCellsZeroAtReset : Prop := State.reset.UpperCellsZero

/-- R17: while `LOADED` = 1 and `FAM` = 0 the cells 4 to 15 hold 0x00: every step keeps it. -/
def Obligations.EveryStepKeepsUpperCellsZero : Prop :=
  ∀ s t : State, s.UpperCellsZero → step s = .next t → t.UpperCellsZero

/-! ## Runs -/

/-- Putting the steps into the list `inputs` and taking as many machine steps is the same as presenting them
one after another: the commands take effect one at a time, in the order presented (20_memory.md section 4).
The list itself is the model's choice (log 1): the spec has no queue, its host drives the ports at every
step. -/
def Obligations.RunTakesStepsInOrder : Prop :=
  ∀ (xs : List PortInput) (s : State),
    Host.Core.run core xs.length { s with inputs := xs ++ s.inputs } = runSteps xs s

/-- R66: `NOP` reads and writes nothing; steps that present it may be put in or left out anywhere: what a
run leaves, and whether it has an end, depends on the other steps alone. -/
def Obligations.NopStepsNeverMatter : Prop :=
  (∀ (s : State) (din : Bus), exec (decode 0b00 din) s = .next s) ∧
  (∀ (xs : List PortInput) (s : State),
    endBuffer (runSteps xs s) = endBuffer (runSteps (xs.filter stepMatters) s))

/-- What `A` and `FAM` hold while `LOADED` = 0 is never seen (70_reset_and_hazards.md section 1): neither
`dout`, `fam_o`, `loaded_o` nor a sample of them depends on it, and two states with the same buffer, absent
or present, have the same runs, whatever their other contents: the same end buffer or no end state, and the
same outputs at the end when the two are of one moment. That the registers hold contents at all is the
model's (log 3), as are the form of a read before a load (log 5) and the moment `draws` (log 4). -/
def Obligations.ContentsWithoutValueAreNeverSeen : Prop :=
  (∀ (s : State), s.loaded = false → ∀ (cells : Bytes 16) (f : Family) (k : Nat),
    ({ s with a := cells, fam := f } : State).dout k = s.dout k ∧
    ({ s with a := cells, fam := f } : State).famO k = s.famO k ∧
    ({ s with a := cells, fam := f } : State).loadedO = s.loadedO ∧
    ({ s with a := cells, fam := f } : State).sample k = s.sample k) ∧
  (∀ (xs : List PortInput) (s t : State), s.buffer? = t.buffer? →
    endBuffer (runSteps xs s) = endBuffer (runSteps xs t) ∧
    (s.draws = t.draws → ∀ s' t', runSteps xs s = .next s' → runSteps xs t = .next t' →
      s'.loadedO = t'.loadedO ∧
      ∀ k, s'.dout k = t'.dout k ∧ s'.famO k = t'.famO k ∧ s'.sample k = t'.sample k))

/-- A run has an end state exactly when the host loads before it increments, after every reset
(70_reset_and_hazards.md sections 2 and 3). -/
def Obligations.RunEndsExactlyWhenDisciplined : Prop :=
  ∀ (xs : List PortInput) (s : State), SafeRun xs s ↔ disciplined s.loaded xs = true

/-- R51: passing a buffer to `Increment` and reading it back is a load, one `INC` step and a sample. -/
def Obligations.IncrementCallOnTheBlock : Prop :=
  (∀ (q : Bytes 4) (s : State) (k : Nat), ∃ t,
    runSteps [encode (.ld4 q), encode .inc] s = .next t ∧ t.sample k = .ipv4 (inc q)) ∧
  (∀ (q : Bytes 16) (s : State) (k : Nat), ∃ t,
    runSteps [encode (.ld16 q), encode .inc] s = .next t ∧ t.sample k = .ipv6 (inc q))

/-- A load and any number of `INC` steps leave the loaded value plus their number, modulo the width's
modulus, and zero cells above a 4-byte sequence (40_increment.md section 3). -/
def Obligations.LoadThenIncrementsAddTheCount : Prop :=
  (∀ (q : Bytes 4) (n : Nat) (s : State), ∃ t,
    runSteps (encode (.ld4 q) :: List.replicate n (encode .inc)) s = .next t ∧
    t.buffer? = some ⟨.ipv4, writeSeq (bytesOf 4 ((val q + n) % 2 ^ 32)) zeroCells⟩) ∧
  (∀ (q : Bytes 16) (n : Nat) (s : State), ∃ t,
    runSteps (encode (.ld16 q) :: List.replicate n (encode .inc)) s = .next t ∧
    t.buffer? = some ⟨.ipv6, bytesOf 16 ((val q + n) % 2 ^ 128)⟩)

/-! ## The host software: the Network Generator -/

/-- R76: the base keeps the first `p` bits and clears the others, and the network's upper end does not
pass the top of the address space. -/
def Obligations.MaskingKeepsThePrefix : Prop :=
  ∀ W : Nat, 0 < W → ∀ (p : Nat) (a : Bytes W), p ≤ 8 * W →
    val (maskedTo p a) = val a - val a % 2 ^ (8 * W - p) ∧
    val (maskedTo p a) / 2 ^ (8 * W - p) = val a / 2 ^ (8 * W - p) ∧
    val (maskedTo p a) % 2 ^ (8 * W - p) = 0 ∧
    val (maskedTo p a) + 2 ^ (8 * W - p) - 1 ≤ 2 ^ (8 * W) - 1

/-- R77: a construction loads the base: afterwards `LOADED` = 1, `FAM` is the family, `A[0..W-1]` is the
base and `remaining` is 2^(bits - p), at least 1 and at most 2^bits. -/
def Obligations.ConstructionLoadsTheBase : Prop :=
  ∀ (c : Cidr) (s : State), c.wf = true → ∃ g, construct c s = .next g ∧
    g.block.loaded = true ∧ g.block.buffer?.map Buffer.address = some (networkBase c) ∧
    g.remaining = 2 ^ (c.addr.bits - c.prefixLen) ∧ 1 ≤ g.remaining ∧ g.remaining ≤ 2 ^ c.addr.bits ∧
    g.block.UpperCellsZero ∧ g.block.inputs = s.inputs

/-- Construction fails with a ParseError exactly when the text is not valid CIDR, the parser and a
prefix length in range being what decides that (42_host_generator.md section 2; log 10). -/
def Obligations.BadTextIsAParseError : Prop :=
  ∀ (parse : String → Option Cidr) (text : String) (s : State),
    (newGenerator parse text s = .error (.malformed text) ↔
      parse text = none ∨ ∃ c, parse text = some c ∧ c.wf = false) ∧
    (∀ c, parse text = some c → c.wf = true → newGenerator parse text s = .ok (construct c s))

/-- R78: with `remaining` = 0 every call returns the sentinel and changes nothing. -/
def Obligations.ExhaustedNextChangesNothing : Prop :=
  ∀ (g : Generator), g.remaining = 0 → ∀ n, g.nextCalls n = .next (List.replicate n none, g)

/-- R80: with `remaining` > 0 a call returns the sample taken before its one `INC` step, and then counts
down. -/
def Obligations.NextSamplesThenIncrements : Prop :=
  ∀ (g : Generator), 0 < g.remaining → g.block.loaded = true → ∃ b,
    command .inc g.block = .next b ∧ g.next = .next (some (g.block.sample 0), ⟨b, g.remaining - 1⟩) ∧
    g.block.buffer?.map Buffer.address = some (g.block.sample 0) ∧
    b.buffer?.map Buffer.address = some (addressAfter 1 (g.block.sample 0))

/-- R84: the k-th successful call returns `bytes_W(val_W(b) + k)`, and no wrap occurs in these values. -/
def Obligations.CallsReturnConsecutiveAddresses : Prop :=
  ∀ (c : Cidr) (s : State) (g : Generator), c.wf = true → construct c s = .next g →
    ∀ n, n ≤ 2 ^ (c.addr.bits - c.prefixLen) →
      (∃ g', g.nextCalls n =
        .next ((List.range n).map fun k => some (addressAfter k (networkBase c)), g')) ∧
      ∀ k, k < n → addressValue (addressAfter k (networkBase c)) = addressValue (networkBase c) + k ∧
        (addressAfter k (networkBase c)).bits = c.addr.bits

/-- R72: the invariants between calls: `remaining` is the count still to come, while it is above 0 the
current address is inside the network, at 0 every query returns the sentinel and the generator stays as it
is, and the family never changes. -/
def Obligations.GeneratorInvariantsBetweenCalls : Prop :=
  ∀ (c : Cidr) (s : State) (g : Generator), c.wf = true → construct c s = .next g →
    ∀ n, n ≤ 2 ^ (c.addr.bits - c.prefixLen) → ∃ vs g', g.nextCalls n = .next (vs, g') ∧
      g'.remaining = 2 ^ (c.addr.bits - c.prefixLen) - n ∧
      (0 < g'.remaining → ∃ x, g'.block.buffer?.map Buffer.address = some x ∧
        addressValue (networkBase c) ≤ addressValue x ∧
        addressValue x < addressValue (networkBase c) + 2 ^ (c.addr.bits - c.prefixLen)) ∧
      (g'.remaining = 0 → g'.next = .next (none, g')) ∧
      g'.block.fam = g.block.fam ∧ g'.block.loaded = true

/-- R85: for a network with N addresses exactly N calls return a value, the next and every later one the
sentinel. -/
def Obligations.ExactlyAsManyCallsAsAddresses : Prop :=
  ∀ (c : Cidr) (s : State) (g : Generator), c.wf = true → construct c s = .next g → ∀ m, ∃ vs g',
    g.nextCalls (2 ^ (c.addr.bits - c.prefixLen) + m) = .next (vs ++ List.replicate m none, g') ∧
    vs.length = 2 ^ (c.addr.bits - c.prefixLen) ∧ (∀ v ∈ vs, v.isSome = true) ∧ vs.Nodup ∧
    g'.remaining = 0

/-- After exhaustion the buffer holds the address N above the base modulo the family's modulus, and stays
so; the block is what exactly N `INC` steps make of the block right after the load; the buffer is all zeros
exactly when the network ends at the all-ones address (42_host_generator.md section 4). The second clause
compares whole states, the model's own fields among them (log 1, log 4). -/
def Obligations.BufferAfterExhaustionIsOnePastTheEnd : Prop :=
  ∀ (c : Cidr) (s : State) (g : Generator), c.wf = true → construct c s = .next g → ∀ m, ∃ vs g',
    g.nextCalls (2 ^ (c.addr.bits - c.prefixLen) + m) = .next (vs, g') ∧
    g'.block.buffer?.map Buffer.address =
      some (addressAfter (2 ^ (c.addr.bits - c.prefixLen)) (networkBase c)) ∧
    runSteps (List.replicate (2 ^ (c.addr.bits - c.prefixLen)) (encode .inc)) g.block = .next g'.block ∧
    (∀ q, networkBase c = .ipv4 q →
      (g'.block.buffer?.map Buffer.address = some (.ipv4 (bytesOf 4 0)) ↔
        val q + (2 ^ (32 - c.prefixLen) - 1) = 2 ^ 32 - 1)) ∧
    (∀ q, networkBase c = .ipv6 q →
      (g'.block.buffer?.map Buffer.address = some (.ipv6 (bytesOf 16 0)) ↔
        val q + (2 ^ (128 - c.prefixLen) - 1) = 2 ^ 128 - 1))
end

