-- ==== Sys2Proof/Laws/Operands.lean ====
section
/-! SUPPORT. Spec lemmas of the lanes, of packing a bus, and of the sequence inside the cells. -/

namespace Sys2Proof

@[simp] theorem lanes_get {W : Nat} (v : Bus) (i : Nat) (h : i < W) : (lanes W v)[i] = lane v i := by
  simp [lanes]

theorem padLanes_get (q : Bytes 4) (j : Nat) (h : j < 16) :
    (padLanes q)[j] = if h' : j < 4 then q[j] else 0x00 := by
  simp [padLanes]

/-- A byte put on lane `k` is read back from lane `k` and leaves the other lanes zero. -/
theorem lane_single (b : Byte) (k i : Nat) (hk : k < 16) (hi : i < 16) :
    lane (b.setWidth 128 <<< (120 - 8 * k)) i = if i = k then b else 0x00 := by
  apply BitVec.eq_of_getLsbD_eq
  intro m hm
  by_cases h : i = k
  · subst h
    have h1 : 120 - 8 * i + m < 128 := by omega
    simp [lane, hm, h1]
  · have hlt : 120 - 8 * i + m < 128 := by omega
    have hb : 120 - 8 * i + m < 120 - 8 * k ∨ 8 ≤ 120 - 8 * i + m - (120 - 8 * k) := by omega
    rcases hb with hb | hb
    · simp [lane, hm, hlt, h, hb]
    · simp [lane, hm, hlt, h, BitVec.getLsbD_of_ge b _ hb]

theorem lane_or (v w : Bus) (i : Nat) : lane (v ||| w) i = lane v i ||| lane w i := by
  apply BitVec.eq_of_getLsbD_eq
  intro m hm
  simp [lane, hm]

/-- What the lanes of a bus with the first `k` bytes packed hold. -/
theorem lane_packFirst (a : Bytes 16) (i : Nat) (hi : i < 16) :
    ∀ (k : Nat) (h : k ≤ 16), lane (packFirst a k h) i = if i < k then a[i] else 0x00 := by
  intro k
  induction k with
  | zero => intro h; simp [packFirst, lane]
  | succ k ih =>
    intro h
    rw [packFirst, lane_or, ih, lane_single _ k i (by omega) hi]
    by_cases h1 : i < k
    · simp [h1, Nat.lt_succ_of_lt h1, Nat.ne_of_lt h1]
    · by_cases h2 : i = k
      · subst h2; simp
      · have h3 : ¬ i < k + 1 := by omega
        simp [h1, h2, h3]

/-- Lane `i` of a packed bus is byte `i` (R20). -/
theorem lane_pack (a : Bytes 16) (i : Nat) (hi : i < 16) : lane (pack a) i = a[i] := by
  simp [pack, lane_packFirst a i hi, hi]

theorem lanes_pack (a : Bytes 16) : lanes 16 (pack a) = a := by
  ext i hi : 1
  simp [lane_pack a i hi]

theorem lanes_pack_padLanes (q : Bytes 4) : lanes 4 (pack (padLanes q)) = q := by
  ext i hi : 1
  rw [lanes_get, lane_pack _ i (by omega), padLanes_get _ i (by omega), dif_pos hi]

@[simp] theorem Family.ofBit_bit (f : Family) : Family.ofBit f.bit = f := by cases f <;> rfl

end Sys2Proof

namespace Sys2Proof.Machine

@[simp] theorem readSeq_get (W : Nat) (h : W ≤ 16) (a : Bytes 16) (i : Nat) (hi : i < W) :
    (readSeq W h a)[i] = a[i] := by
  simp [readSeq]

theorem writeSeq_get {W : Nat} (q : Bytes W) (a : Bytes 16) (j : Nat) (hj : j < 16) :
    (writeSeq q a)[j] = if h : j < W then q[j] else a[j] := by
  simp [writeSeq]

@[simp] theorem zeroCells_get (j : Nat) (hj : j < 16) : zeroCells[j] = 0x00 := by
  simp [zeroCells]

/-- What is written is read back. -/
@[simp] theorem readSeq_writeSeq {W : Nat} (h : W ≤ 16) (q : Bytes W) (a : Bytes 16) :
    readSeq W h (writeSeq q a) = q := by
  ext i hi : 1
  rw [readSeq_get, writeSeq_get _ _ i (by omega), dif_pos hi]

/-- Writing a sequence twice is writing it once. -/
@[simp] theorem writeSeq_writeSeq {W : Nat} (q r : Bytes W) (a : Bytes 16) :
    writeSeq q (writeSeq r a) = writeSeq q a := by
  ext j hj : 1
  simp only [writeSeq_get _ _ j hj]
  split <;> rfl

/-- A 16-byte sequence is all the cells. -/
theorem readSeq_sixteen (a : Bytes 16) (h : 16 ≤ 16) : readSeq 16 h a = a := by
  ext i hi : 1
  simp

theorem writeSeq_sixteen (q a : Bytes 16) : writeSeq q a = q := by
  ext j hj : 1
  simp [writeSeq_get _ _ j hj, hj]

/-- A host's sample of a loaded buffer is the address in it, whichever read it is (R21, R51). -/
theorem State.sample_of_loaded {s : State} (h : s.loaded = true) (k : Nat) :
    s.sample k = Buffer.address ⟨s.fam, s.a⟩ := by
  have hf : s.famO k = s.fam.bit := by simp [State.famO, h]
  have hd : s.dout k = pack s.a := by simp [State.dout, h]
  rw [State.sample, hf, hd, Family.ofBit_bit]
  cases hs : s.fam
  · simp only [Buffer.address]
    congr 1
    ext i hi : 1
    rw [lanes_get, lane_pack _ i (by omega), readSeq_get]
  · simp only [Buffer.address]
    rw [lanes_pack, readSeq_sixteen]

end Sys2Proof.Machine
end

