-- ==== Sys2Proof/Laws/State.lean ====
section
/-! SUPPORT. One lemma per field per update of State, and the views after them. -/

namespace Sys2Proof.Machine

@[simp] theorem State.load_a (s : State) (f : Family) (c : Bytes 16) : (s.load f c).a = c := rfl
@[simp] theorem State.load_fam (s : State) (f : Family) (c : Bytes 16) : (s.load f c).fam = f := rfl
@[simp] theorem State.load_loaded (s : State) (f : Family) (c : Bytes 16) : (s.load f c).loaded = true := rfl
@[simp] theorem State.load_inputs (s : State) (f : Family) (c : Bytes 16) : (s.load f c).inputs = s.inputs := rfl
@[simp] theorem State.load_draws (s : State) (f : Family) (c : Bytes 16) : (s.load f c).draws = s.draws := rfl

@[simp] theorem State.setCells_a (s : State) (c : Bytes 16) : (s.setCells c).a = c := rfl
@[simp] theorem State.setCells_fam (s : State) (c : Bytes 16) : (s.setCells c).fam = s.fam := rfl
@[simp] theorem State.setCells_loaded (s : State) (c : Bytes 16) : (s.setCells c).loaded = s.loaded := rfl
@[simp] theorem State.setCells_inputs (s : State) (c : Bytes 16) : (s.setCells c).inputs = s.inputs := rfl
@[simp] theorem State.setCells_draws (s : State) (c : Bytes 16) : (s.setCells c).draws = s.draws := rfl

@[simp] theorem State.clear_loaded (s : State) : (s.clear).loaded = false := rfl
@[simp] theorem State.clear_inputs (s : State) : (s.clear).inputs = s.inputs := rfl
@[simp] theorem State.clear_draws (s : State) : (s.clear).draws = s.draws := rfl

@[simp] theorem State.present_a (s : State) (x : PortInput) : (s.present x).a = s.a := rfl
@[simp] theorem State.present_fam (s : State) (x : PortInput) : (s.present x).fam = s.fam := rfl
@[simp] theorem State.present_loaded (s : State) (x : PortInput) : (s.present x).loaded = s.loaded := rfl
@[simp] theorem State.present_inputs (s : State) (x : PortInput) : (s.present x).inputs = x :: s.inputs := rfl
@[simp] theorem State.present_draws (s : State) (x : PortInput) : (s.present x).draws = s.draws := rfl

@[simp] theorem State.advance_a (s : State) (r : List PortInput) : (s.advance r).a = s.a := rfl
@[simp] theorem State.advance_fam (s : State) (r : List PortInput) : (s.advance r).fam = s.fam := rfl
@[simp] theorem State.advance_loaded (s : State) (r : List PortInput) : (s.advance r).loaded = s.loaded := rfl
@[simp] theorem State.advance_inputs (s : State) (r : List PortInput) : (s.advance r).inputs = r := rfl
@[simp] theorem State.advance_draws (s : State) (r : List PortInput) : (s.advance r).draws = s.draws + 1 := rfl

@[simp] theorem State.buffer?_load (s : State) (f : Family) (c : Bytes 16) :
    (s.load f c).buffer? = some ⟨f, c⟩ := rfl

@[simp] theorem State.buffer?_clear (s : State) : s.clear.buffer? = none := rfl

@[simp] theorem State.buffer?_present (s : State) (x : PortInput) : (s.present x).buffer? = s.buffer? := rfl

@[simp] theorem State.buffer?_advance (s : State) (r : List PortInput) :
    (s.advance r).buffer? = s.buffer? := rfl

/-- Presenting a step and taking it leaves the presented steps as they were. -/
@[simp] theorem State.advance_present (s : State) (x : PortInput) (r : List PortInput) :
    (s.present x).advance r = s.advance r := rfl

theorem State.buffer?_of_loaded {s : State} (h : s.loaded = true) : s.buffer? = some ⟨s.fam, s.a⟩ := by
  simp [State.buffer?, h]

theorem State.buffer?_of_unloaded {s : State} (h : s.loaded = false) : s.buffer? = none := by
  simp [State.buffer?, h]

/-- The buffer is absent exactly while `LOADED` = 0 (R16, R106). -/
theorem State.buffer?_isSome (s : State) : s.buffer?.isSome = s.loaded := by
  cases h : s.loaded <;> simp [State.buffer?, h]

/-- A reset leaves nothing of the registers: two states of one moment and one list of presented steps
are the same after it (R105). -/
theorem State.clear_congr {s t : State} (hi : s.inputs = t.inputs) (hd : s.draws = t.draws) :
    s.clear = t.clear := by
  simp [State.clear, hi, hd]

/-- Power-on is a reset (R105). -/
theorem State.reset_clear : State.reset.clear = State.reset := rfl

end Sys2Proof.Machine
end

