-- ==== Sys2Proof/Laws/Increment.lean ====
section
/-! SUPPORT. Spec lemmas of the scan: one equation per case, and what it leaves alone; the fields after
an `INC`. -/

namespace Sys2Proof.Machine

theorem incScan_zero {W : Nat} (h : 0 ≤ W) (a : Bytes W) : incScan 0 h a = a := rfl

/-- The byte wraps and the carry goes on (R54). -/
theorem incScan_wraps {W k : Nat} (h : k + 1 ≤ W) (a : Bytes W) (hb : a[k] = 0xFF) :
    incScan (k + 1) h a = incScan k (Nat.le_of_succ_le h) (a.set k 0x00) := by
  rw [incScan, if_pos hb]

/-- The byte absorbs the carry and the scan stops (R54). -/
theorem incScan_absorbs {W k : Nat} (h : k + 1 ≤ W) (a : Bytes W) (hb : a[k] ≠ 0xFF) :
    incScan (k + 1) h a = a.set k (a[k] + 1) := by
  rw [incScan, if_neg hb]

/-- Indices visited already are not touched again. -/
theorem incScan_get_of_ge {W : Nat} : ∀ (k : Nat) (h : k ≤ W) (a : Bytes W) (j : Nat) (hj : j < W),
    k ≤ j → (incScan k h a)[j] = a[j] := by
  intro k
  induction k with
  | zero => intro h a j hj _; rfl
  | succ k ih =>
    intro h a j hj hkj
    have hne : k ≠ j := by omega
    by_cases hb : a[k] = 0xFF
    · rw [incScan_wraps h a hb, ih _ _ j hj (by omega), Vector.getElem_set_ne _ _ hne]
    · rw [incScan_absorbs h a hb, Vector.getElem_set_ne _ _ hne]

@[simp] theorem State.incremented_fam (s : State) : s.incremented.fam = s.fam := rfl
@[simp] theorem State.incremented_loaded (s : State) : s.incremented.loaded = s.loaded := rfl
@[simp] theorem State.incremented_inputs (s : State) : s.incremented.inputs = s.inputs := rfl
@[simp] theorem State.incremented_draws (s : State) : s.incremented.draws = s.draws := rfl

/-- `INC` with `FAM` = 0, the width written out (R61, R63). -/
theorem State.incremented_ipv4 {s : State} (h : s.fam = .ipv4) :
    s.incremented = s.setCells (writeSeq (inc (readSeq 4 (by decide) s.a)) s.a) := by
  obtain ⟨a, f, l, i, d⟩ := s
  cases h
  rfl

/-- `INC` with `FAM` = 1: all the cells are the sequence (R61, R63). -/
theorem State.incremented_ipv6 {s : State} (h : s.fam = .ipv6) : s.incremented = s.setCells (inc s.a) := by
  obtain ⟨a, f, l, i, d⟩ := s
  cases h
  have e : (State.mk a .ipv6 l i d).incremented =
      (State.mk a .ipv6 l i d).setCells (writeSeq (inc (readSeq 16 (by decide) a)) a) := rfl
  rw [e, readSeq_sixteen, writeSeq_sixteen]

/-- The cells from `W` on are not written (R61, R63). -/
theorem State.incremented_get_of_ge (s : State) (j : Nat) (hj : j < 16) (h : s.fam.width ≤ j) :
    s.incremented.a[j] = s.a[j] := by
  simp only [State.incremented, State.setCells_a, writeSeq_get _ _ j hj]
  exact dif_neg (by omega)

/-- The first `W` cells hold the incremented sequence (R61). -/
theorem State.readSeq_incremented (s : State) :
    readSeq s.fam.width (width_le s.fam) s.incremented.a = inc (readSeq s.fam.width (width_le s.fam) s.a) := by
  simp [State.incremented]

end Sys2Proof.Machine
end

