-- ==== Sys2Proof/Laws/PerInstr.lean ====
section
/-! SUPPORT. The per-instruction family `OpcodeRow`: the step that presents a command matches the
command's row of the opcode table (spec 30_encoding.md R44: match over `op`, mask 0x3) and no other. -/

namespace Sys2Proof.Laws.OpcodeRow

/-- The row's match value (R44). -/
def rowMatch : Instr → Nat
  | .nop => 0x0
  | .ld4 _ => 0x1
  | .ld16 _ => 0x2
  | .inc => 0x3

/-- The encoded command is no reset, its opcode under the mask is its row's match, and it decodes to a
command of the same row. -/
def Statement (i : Instr) : Prop :=
  (encode i).rst = false ∧ (encode i).op.toNat &&& 0x3 = rowMatch i ∧
    rowMatch (decode (encode i).op (encode i).din) = rowMatch i

theorem nop : Statement .nop := ⟨rfl, rfl, rfl⟩

theorem ld4 (q : Bytes 4) : Statement (.ld4 q) :=
  ⟨rfl, by simp [encode, Instr.opcode, rowMatch], rfl⟩

theorem ld16 (q : Bytes 16) : Statement (.ld16 q) :=
  ⟨rfl, by simp [encode, Instr.opcode, rowMatch], rfl⟩

theorem inc : Statement .inc := ⟨rfl, rfl, rfl⟩

end Sys2Proof.Laws.OpcodeRow
end

