-- ==== Sys2Proof/Laws/Step.lean ====
section
/-! SUPPORT. What `exec`, `step`, `command` and `andThen` can do, said once. -/

namespace Sys2Proof.Machine

@[simp] theorem andThen_next {σ τ φ ρ : Type} (s : σ) (f : σ → Host.Outcome τ φ ρ) :
    andThen (.next s) f = f s := rfl
@[simp] theorem andThen_refused {σ τ φ ρ : Type} (r : ρ) (f : σ → Host.Outcome τ φ ρ) :
    andThen (.refused r) f = .refused r := rfl
@[simp] theorem andThen_fault {σ τ φ ρ : Type} (r : φ) (f : σ → Host.Outcome τ φ ρ) :
    andThen (.fault r) f = .fault r := rfl

theorem exec_nop (s : State) : exec .nop s = .next s := rfl

theorem exec_ld4 (q : Bytes 4) (s : State) :
    exec (.ld4 q) s = .next (s.load .ipv4 (writeSeq q zeroCells)) := rfl

theorem exec_ld16 (q : Bytes 16) (s : State) : exec (.ld16 q) s = .next (s.load .ipv6 q) := rfl

theorem exec_inc (s : State) : exec .inc s = execInc s := rfl

theorem execInc_loaded {s : State} (h : s.loaded = true) : execInc s = .next s.incremented := by
  simp [execInc, h]

theorem execInc_unloaded {s : State} (h : s.loaded = false) : execInc s = .refused .incBeforeLoad := by
  simp [execInc, h]

/-- Everything a command that answers a next state can have done. -/
theorem exec_next_cases {i : Instr} {s t : State} (h : exec i s = .next t) :
    (i = .nop ∧ t = s) ∨ (∃ q, i = .ld4 q ∧ t = s.load .ipv4 (writeSeq q zeroCells)) ∨
    (∃ q, i = .ld16 q ∧ t = s.load .ipv6 q) ∨ (i = .inc ∧ s.loaded = true ∧ t = s.incremented) := by
  cases i with
  | nop => exact .inl ⟨rfl, by cases h; rfl⟩
  | ld4 q => exact .inr (.inl ⟨q, rfl, by cases h; rfl⟩)
  | ld16 q => exact .inr (.inr (.inl ⟨q, rfl, by cases h; rfl⟩))
  | inc =>
    cases hl : s.loaded with
    | true =>
      have h' := (execInc_loaded hl).symm.trans h
      exact .inr (.inr (.inr ⟨rfl, rfl, by cases h'; rfl⟩))
    | false =>
      have h' := (execInc_unloaded hl).symm.trans h
      cases h'

/-- A step with a reset presented next. -/
theorem step_reset {s : State} {x : PortInput} {rest : List PortInput} (h : s.inputs = x :: rest)
    (hr : x.rst = true) : step s = .next (s.advance rest).clear := by
  simp [step, State.fetch, h, PortInput.transition, hr]

/-- A step with a command presented next runs what it decodes to. -/
theorem step_command {s : State} {x : PortInput} {rest : List PortInput} (h : s.inputs = x :: rest)
    (hr : x.rst = false) : step s = exec (decode x.op x.din) (s.advance rest) := by
  simp [step, State.fetch, h, PortInput.transition, hr]

theorem step_nothing {s : State} (h : s.inputs = []) : step s = .refused .noStepPresented := by
  simp [step, State.fetch, h]

/-- Everything a step that answers a next state can have done: the reset transition, or a command. -/
theorem step_next_cases {s t : State} (h : step s = .next t) :
    ∃ x rest, s.inputs = x :: rest ∧
      ((x.rst = true ∧ t = (s.advance rest).clear) ∨
       (x.rst = false ∧ exec (decode x.op x.din) (s.advance rest) = .next t)) := by
  cases hi : s.inputs with
  | nil => rw [step_nothing hi] at h; cases h
  | cons x rest =>
    refine ⟨x, rest, rfl, ?_⟩
    cases hr : x.rst with
    | true => rw [step_reset hi hr] at h; cases h; exact .inl ⟨rfl, rfl⟩
    | false => rw [step_command hi hr] at h; exact .inr ⟨rfl, h⟩

/-- A command changes neither the presented steps nor the moment. -/
theorem exec_next_frame {i : Instr} {s t : State} (h : exec i s = .next t) :
    t.inputs = s.inputs ∧ t.draws = s.draws := by
  obtain ⟨-, rfl⟩ | ⟨q, -, rfl⟩ | ⟨q, -, rfl⟩ | ⟨-, -, rfl⟩ := exec_next_cases h <;> simp

end Sys2Proof.Machine
end

