-- ==== Sys2Proof/Laws/Run.lean ====
section
/-! SUPPORT. The host's own run, one step at a time; runs of presented steps, one step at a time. -/

namespace Sys2Proof.Machine

theorem core_run_zero (s : State) : Host.Core.run core 0 s = .next s := rfl

theorem core_run_succ (n : Nat) (s : State) :
    Host.Core.run core (n + 1) s = andThen (step s) fun t => Host.Core.run core n t := by
  refine (Host.Core.run.eq_2 core s n).trans ?_
  have h : core.step s = step s := rfl
  rw [h]
  cases step s <;> rfl

theorem runSteps_nil (s : State) : runSteps [] s = .next s := rfl

theorem runSteps_cons (x : PortInput) (xs : List PortInput) (s : State) :
    runSteps (x :: xs) s = andThen (step (s.present x)) (runSteps xs) := rfl

end Sys2Proof.Machine
end

