-- ==== Sys2Proof/Tests/Slice0.lean ====
section
/-! SUPPORT. Tests of the model against the worked examples and vectors of spec/95_test_vectors.md
(S, V, B, H numbers), and a witness for the hypotheses of every statement that has some. -/

namespace Sys2Proof.Tests

open Sys2Proof Sys2Proof.Machine

/-- A state with these registers, these presented steps, at moment 0. -/
def st (f : Family) (l : Bool) (a : Bytes 16) (xs : List PortInput) : State := ⟨a, f, l, xs, 0⟩

/-- The cells that hold a 4-byte sequence, zero above it (R17). -/
def cells4 (a b c d : Byte) : Bytes 16 := #v[a, b, c, d, 0, 0, 0, 0, 0, 0, 0, 0, 0, 0, 0, 0]

/-- fe80::ffff:ffff, the source's IPv6 example (S6). -/
def fe80ffff : Bytes 16 := #v[0xFE, 0x80, 0, 0, 0, 0, 0, 0, 0, 0, 0, 0, 0xFF, 0xFF, 0xFF, 0xFF]

/-- The cells of an answered next state. -/
def cellsOf : Host.Outcome State Fault Refusal → Option (Bytes 16)
  | .next t => some t.a
  | .fault _ => none
  | .refused _ => none

/-! ## Well-formedness: a well-formed term, and an ill-formed one for each check -/

theorem test_wf_instr : (Instr.ld4 #v[0xFF, 0xFF, 0xFF, 0xFF]).wf = true := by decide
theorem test_wf_dotted : (Ipv4Text.dotted 255 0 0 255).wf = true := by decide
theorem test_illformed_dotted_a : (Ipv4Text.dotted 256 0 0 0).wf = false := by decide
theorem test_illformed_dotted_b : (Ipv4Text.dotted 0 256 0 0).wf = false := by decide
theorem test_illformed_dotted_c : (Ipv4Text.dotted 0 0 256 0).wf = false := by decide
theorem test_illformed_dotted_d : (Ipv4Text.dotted 0 0 0 256).wf = false := by decide
theorem test_wf_hex4 : (Ipv4Text.hex [0, 10, 15, 15, 15, 15, 15, 15]).wf = true := by decide
theorem test_illformed_hex4_count : (Ipv4Text.hex [0, 10, 15, 15, 15, 15, 15]).wf = false := by decide
theorem test_illformed_hex4_digit : (Ipv4Text.hex [0, 16, 15, 15, 15, 15, 15, 15]).wf = false := by decide
theorem test_wf_groups : (Ipv6Text.groups [0xFE80, 0, 0, 0, 0, 0, 0xFFFF, 1]).wf = true := by decide
theorem test_illformed_groups_count : (Ipv6Text.groups [0xFE80, 0, 0, 0, 0, 0, 0xFFFF]).wf = false := by decide
theorem test_illformed_groups_size : (Ipv6Text.groups [0x10000, 0, 0, 0, 0, 0, 0, 1]).wf = false := by decide
theorem test_wf_compressed : (Ipv6Text.compressed [1, 2, 3, 4, 5, 6] [7]).wf = true := by decide
theorem test_illformed_compressed_count : (Ipv6Text.compressed [1, 2, 3, 4, 5, 6] [7, 8]).wf = false := by decide
theorem test_illformed_compressed_size : (Ipv6Text.compressed [] [0x10000]).wf = false := by decide
theorem test_wf_hex16 : (Ipv6Text.hex (List.replicate 32 15)).wf = true := by decide
theorem test_illformed_hex16_count : (Ipv6Text.hex (List.replicate 33 15)).wf = false := by decide
theorem test_illformed_hex16_digit : (Ipv6Text.hex (List.replicate 32 16)).wf = false := by decide
theorem test_wf_line : (Line.ld4 (.dotted 10 10 10 128)).wf = true := by decide
theorem test_illformed_line4 : (Line.ld4 (.dotted 10 10 10 300)).wf = false := by decide
theorem test_illformed_line16 : (Line.ld16 (.groups [])).wf = false := by decide
theorem test_wf_cidr4 : (Cidr.mk (.ipv4 #v[0, 0, 0, 0]) 32).wf = true := by decide
theorem test_illformed_cidr4 : (Cidr.mk (.ipv4 #v[1, 2, 3, 4]) 33).wf = false := by decide
theorem test_wf_cidr16 : (Cidr.mk (.ipv6 fe80ffff) 128).wf = true := by decide
theorem test_illformed_cidr16 : (Cidr.mk (.ipv6 fe80ffff) 129).wf = false := by decide

/-! ## Decoding: words written out from the spec's encodings -/

/-- `{op, din}` with op 00 (R42, R44). -/
theorem test_decode_nop : decodeWord 0x0FFFFFFFFFFFFFFFFFFFFFFFFFFFFFFFF = .nop := by decide
/-- B1: op 01, lanes 4 to 15 ignored. -/
theorem test_decode_ld4 : decodeWord 0x1C0A86401DEADBEEF0123456789ABCDEF = .ld4 #v[0xC0, 0xA8, 0x64, 0x01] := by
  decide
/-- S6: op 10. -/
theorem test_decode_ld16 : decodeWord 0x2FE8000000000000000000000FFFFFFFF = .ld16 fe80ffff := by decide
/-- op 11. -/
theorem test_decode_inc : decodeWord 0x300000000000000000000000000000000 = .inc := by decide
theorem test_table_word_nop : decodeTableWord 8 0x0 = some .nop := by decide
theorem test_table_word_ld4 : decodeTableWord 8 0x1 = some (.ld4 #v[0, 0, 0, 0]) := by decide
theorem test_table_word_ld16 : decodeTableWord 8 0x2 = some (.ld16 (Vector.replicate 16 0)) := by decide
theorem test_table_word_inc : decodeTableWord 8 0x3 = some .inc := by decide
/-- S10's base address on the bus (R64's example). -/
theorem test_encode_ld4 :
    encode (.ld4 #v[0xC0, 0xA8, 0x64, 0x00]) = ⟨false, 0b01, 0xC0A86400000000000000000000000000⟩ := by decide
theorem test_encode_ld16 : encode (.ld16 fe80ffff) = ⟨false, 0b10, 0xFE8000000000000000000000FFFFFFFF⟩ := by decide
/-- R49's readings of the source's texts. -/
theorem test_text_fe80 : (Ipv6Text.compressed [0xFE80] [0xFFFF, 0xFFFF]).bytes = fe80ffff := by decide
theorem test_text_fe80_1_0_0 : (Ipv6Text.compressed [0xFE80] [1, 0, 0]).bytes =
    #v[0xFE, 0x80, 0, 0, 0, 0, 0, 0, 0, 0, 0, 1, 0, 0, 0, 0] := by decide
theorem test_text_100 : (Ipv6Text.compressed [0x100] []).bytes =
    #v[1, 0, 0, 0, 0, 0, 0, 0, 0, 0, 0, 0, 0, 0, 0, 0] := by decide
theorem test_text_dotted : (Ipv4Text.dotted 192 168 100 1).bytes = #v[0xC0, 0xA8, 0x64, 0x01] := by decide
theorem test_text_hex : (Ipv4Text.hex [12, 0, 10, 8, 6, 4, 15, 15]).bytes = #v[0xC0, 0xA8, 0x64, 0xFF] := by decide

/-! ## The commands -/

/-- S3: 192.168.100.255 to 192.168.101.0. -/
theorem test_inc_one_carry :
    cellsOf (exec .inc (st .ipv4 true (cells4 0xC0 0xA8 0x64 0xFF) [])) = some (cells4 0xC0 0xA8 0x65 0x00) := by
  decide
/-- S6: fe80::ffff:ffff to fe80::1:0:0. -/
theorem test_inc_ipv6_multi_carry : cellsOf (exec .inc (st .ipv6 true fe80ffff [])) =
    some #v[0xFE, 0x80, 0, 0, 0, 0, 0, 0, 0, 0, 0, 1, 0, 0, 0, 0] := by decide
/-- V10: a 0xFF above the absorbing byte is untouched. -/
theorem test_primitive_high_ff : inc (#v[0xFF, 0x00, 0xFF, 0xFF] : Bytes 4) = #v[0xFF, 0x01, 0x00, 0x00] := by decide
/-- V7: no signedness. -/
theorem test_primitive_sign : inc (#v[0x7F, 0xFF, 0xFF, 0xFF] : Bytes 4) = #v[0x80, 0x00, 0x00, 0x00] := by decide
/-- S4 by the carry chain. -/
theorem test_carry_chain : incByCarries (#v[0x0A, 0xFF, 0xFF, 0xFF] : Bytes 4) = #v[0x0B, 0x00, 0x00, 0x00] := by decide
/-- B6: a reload replaces everything. -/
theorem test_ld4_replaces :
    cellsOf (step (st .ipv6 true (Vector.replicate 16 0xFF) [⟨false, 0b01, 0x0A0A0A80000000000000000000000000⟩])) =
      some (cells4 0x0A 0x0A 0x0A 0x80) := by decide
/-- B7: the other family. -/
theorem test_ld16_replaces :
    cellsOf (step (st .ipv4 true (cells4 0x0A 0x0A 0x0A 0x80) [⟨false, 0b10, 0x000000000000000000000000FFFFFFFF⟩])) =
      some #v[0, 0, 0, 0, 0, 0, 0, 0, 0, 0, 0, 0, 0xFF, 0xFF, 0xFF, 0xFF] := by decide
/-- B2: `NOP` with ones on `din`. -/
theorem test_nop_keeps :
    cellsOf (step (st .ipv4 true (cells4 0xC0 0xA8 0x64 0x01) [⟨false, 0b00, 0xFFFFFFFFFFFFFFFFFFFFFFFFFFFFFFFF⟩])) =
      some (cells4 0xC0 0xA8 0x64 0x01) := by decide
/-- B5: reset wins over `INC`. -/
theorem test_reset_wins :
    endBuffer (step (st .ipv6 true fe80ffff [⟨true, 0b11, 0⟩])) = some none := by decide
/-- P1's end value on `dout`. -/
theorem test_dout : (st .ipv4 true (cells4 0xC0 0xA8 0x65 0x01) []).dout 0 = 0xC0A86501000000000000000000000000 := by
  decide
/-- S11: 10.10.10.245/25 masks to 10.10.10.128, 128 addresses. -/
theorem test_mask : networkBase ⟨.ipv4 #v[10, 10, 10, 245], 25⟩ = .ipv4 #v[10, 10, 10, 128] := by decide
theorem test_count : networkCount ⟨.ipv4 #v[10, 10, 10, 245], 25⟩ = 128 := by decide
/-- S13: 2^64 addresses. -/
theorem test_count_64 : networkCount ⟨.ipv6 (Ipv6Text.compressed [0x100] []).bytes, 64⟩ = 18446744073709551616 := by
  decide

/-! ## Witnesses: states and operands that meet the hypotheses of the statements -/

/-- DecodingIsTheTableOfFourOpcodes, both `rst` clauses. -/
theorem witness_rst : (PortInput.mk false 0b11 0).rst = false ∧ (PortInput.mk true 0b11 0).rst = true := by decide
/-- OperandsAreTheByteLanes: two different buses with the same lanes 0 to 3, and the end lanes. -/
theorem witness_same_top : (0xC0A86401000000000000000000000000 : Bus).toNat / 2 ^ 96 =
    (0xC0A86401FFFFFFFFFFFFFFFFFFFFFFFF : Bus).toNat / 2 ^ 96 := by decide
/-- BusNumberIsSequenceValue at the end lanes. -/
theorem witness_lane_ends : lane 0xAB0000000000000000000000000000CD 0 = 0xAB ∧
    lane 0xAB0000000000000000000000000000CD 15 = 0xCD := by decide
/-- DecodeOfEncodeIsTheCommand. -/
theorem witness_wf : (Instr.ld16 fe80ffff).wf = true := by decide
/-- AssembledLineIsItsTransition: well-formed lines, and a sequence with an ill-formed one. -/
theorem witness_lines : (∀ l ∈ [Line.ld4 (.dotted 192 168 100 254), .inc, .reset, .nop], l.wf = true) ∧
    Line.ld4 (.dotted 1 2 3 256) ∈ [Line.inc, .ld4 (.dotted 1 2 3 256)] ∧
    (Line.ld4 (.dotted 1 2 3 256)).wf = false := by decide
/-- WrittenAddressHasItsValue, each clause at the ends of its range. -/
theorem witness_texts : (Ipv4Text.dotted 255 255 255 255).wf = true ∧ (Ipv4Text.hex (List.replicate 8 15)).wf = true ∧
    (Ipv6Text.groups (List.replicate 8 65535)).wf = true ∧ (Ipv6Text.compressed [] []).wf = true ∧
    (Ipv6Text.compressed [] (List.replicate 7 65535)).wf = true ∧ (Ipv6Text.hex (List.replicate 32 0)).wf = true := by
  decide
/-- ValueAndBytesAreInverse, IncrementAddsOneModuloWidth, RepeatedIncrementAddsTheCount and
IncrementIsAFullCycle: a width, its largest number, and a positive count below the cycle. -/
theorem witness_width : 0 < 4 ∧ 2 ^ (8 * 4) - 1 < 2 ^ (8 * 4) ∧ 0 < 1 ∧ 1 < 2 ^ (8 * 4) := by decide
/-- IncrementClosedForm with k = W (V5). -/
theorem witness_closed_all : ∀ (j : Nat) (h : j < 4), 4 ≤ j + 4 →
    (#v[0xFF, 0xFF, 0xFF, 0xFF] : Bytes 4)[j] = 0xFF := by decide
/-- IncrementClosedForm with k = 3 < W (S4): three trailing 0xFF, and the absorbing byte. -/
theorem witness_closed_three : (∀ (j : Nat) (h : j < 4), 4 ≤ j + 3 →
    (#v[0x0A, 0xFF, 0xFF, 0xFF] : Bytes 4)[j] = 0xFF) ∧
    (#v[0x0A, 0xFF, 0xFF, 0xFF] : Bytes 4)[4 - 1 - 3] ≠ 0xFF := by decide
/-- IncrementClosedForm with k = 0 (V1). -/
theorem witness_closed_none : (∀ (j : Nat) (h : j < 4), 4 ≤ j + 0 →
    (#v[1, 2, 3, 0xFE] : Bytes 4)[j] = 0xFF) ∧ (#v[1, 2, 3, 0xFE] : Bytes 4)[4 - 1 - 0] ≠ 0xFF := by decide
/-- IncrementIsTheCarryChain: a carry that is 1 and one that is 0 (S3). -/
theorem witness_carries : carry (#v[0xC0, 0xA8, 0x64, 0xFF] : Bytes 4) 3 = 1 ∧
    carry (#v[0xC0, 0xA8, 0x64, 0xFF] : Bytes 4) 2 = 0 := by decide
/-- AllOnesWrapsToZerosSilently: V14 and V6. -/
theorem witness_all_ones : (st .ipv4 true (cells4 0xFF 0xFF 0xFF 0xFF) []).loaded = true ∧
    (∀ j : Fin 16, j.1 < 4 → (cells4 0xFF 0xFF 0xFF 0xFF)[j] = 0xFF) ∧
    (∀ j : Fin 16, j.1 < 16 → (Vector.replicate 16 0xFF : Bytes 16)[j] = 0xFF) := by decide
/-- IncIncrementsTheBufferInPlace, IncBeforeLoadHasNoNextState: a loaded state, and one that is not with
`INC` presented. -/
theorem witness_inc_states : (st .ipv4 true (cells4 0xC0 0xA8 0x64 0xFF) []).loaded = true ∧
    (st .ipv4 false (cells4 0 0 0 0) []).loaded = false ∧ State.reset.loaded = false ∧
    (PortInput.mk false 0b11 0).rst = false ∧ (PortInput.mk false 0b11 0).op = 0b11 := by decide
/-- IncBeforeLoadHasNoNextState's conclusion on P4x. -/
theorem test_inc_before_load :
    step (State.reset.present ⟨false, 0b11, 0⟩) = .refused .incBeforeLoad := rfl
/-- IncStaysInsideItsWidth, 4-byte clauses: two states that agree on cells 0 to 3 only, both with a next
state. -/
theorem witness_width4 :
    (∀ j : Fin 16, j.1 < 4 → (cells4 0xFF 0xFF 0xFF 0xFF)[j] = (Vector.replicate 16 0xFF : Bytes 16)[j]) ∧
    (cellsOf (exec .inc (st .ipv4 true (cells4 0xFF 0xFF 0xFF 0xFF) []))).isSome = true ∧
    (cellsOf (exec .inc (st .ipv4 true (Vector.replicate 16 0xFF) []))).isSome = true := by decide
/-- IncStaysInsideItsWidth, 16-byte clause: S6's cells. -/
theorem witness_width16 : (∀ j : Fin 16, 12 ≤ j.1 → fe80ffff[j] = 0xFF) ∧ fe80ffff[11] ≠ 0xFF ∧
    (cellsOf (exec .inc (st .ipv6 true fe80ffff []))).isSome = true := by decide
/-- LoadReplacesEverything: two states that differ in every register; a load that changes the family. -/
theorem witness_reload : (st .ipv4 false (cells4 1 2 3 4) []).inputs = (st .ipv6 true fe80ffff []).inputs ∧
    (st .ipv4 false (cells4 1 2 3 4) []).draws = (st .ipv6 true fe80ffff []).draws ∧
    exec (.ld16 fe80ffff) (st .ipv4 true (cells4 1 2 3 4) []) = .next (st .ipv6 true fe80ffff []) ∧
    (st .ipv6 true fe80ffff []).fam ≠ (st .ipv4 true (cells4 1 2 3 4) []).fam := by
  exact ⟨rfl, rfl, rfl, by decide⟩
/-- FrameOfEveryCommand: each command answers a next state somewhere. -/
theorem witness_frame :
    exec .nop (st .ipv4 true (cells4 1 2 3 4) []) = .next (st .ipv4 true (cells4 1 2 3 4) []) ∧
    (cellsOf (exec (.ld4 #v[1, 2, 3, 4]) State.reset)).isSome = true ∧
    (cellsOf (exec (.ld16 fe80ffff) State.reset)).isSome = true ∧
    (cellsOf (exec .inc (st .ipv4 true (cells4 1 2 3 4) []))).isSome = true := by
  exact ⟨rfl, by decide, by decide, by decide⟩
/-- StepRunsTheDecodedCommand. -/
theorem witness_presented : (st .ipv4 true (cells4 1 2 3 4) [⟨false, 0b11, 0⟩]).inputs = ⟨false, 0b11, 0⟩ :: [] ∧
    (PortInput.mk false 0b11 0).rst = false := by decide
/-- ResetForgetsTheRegisters: different registers, the same presented steps and moment. -/
theorem witness_reset : (PortInput.mk true 0b01 0).rst = true ∧
    (st .ipv4 true (cells4 1 2 3 4) []).inputs = (st .ipv6 false fe80ffff []).inputs ∧
    (st .ipv4 true (cells4 1 2 3 4) []).draws = (st .ipv6 false fe80ffff []).draws := by decide
/-- OutputsShowTheLoadedBuffer: a loaded 4-byte state with the invariant, and states that are not loaded,
right after power-on and after a reset in mid-run. -/
theorem witness_outputs : (st .ipv4 true (cells4 1 2 3 4) []).loaded = true ∧
    (st .ipv4 true (cells4 1 2 3 4) []).UpperCellsZero ∧ (st .ipv4 true (cells4 1 2 3 4) []).fam = .ipv4 ∧
    State.reset.loaded = false ∧ (st .ipv4 true (cells4 1 2 3 4) []).clear.loaded = false := by
  refine ⟨rfl, fun _ _ => ?_, rfl, rfl, rfl⟩
  decide
/-- LoadedIsWrittenByLoadsAndResetOnly: every transition answers a next state from a loaded state. -/
theorem witness_loaded_writers :
    ∀ x ∈ [PortInput.mk true 0 0, ⟨false, 0b00, 0⟩, ⟨false, 0b01, 0⟩, ⟨false, 0b10, 0⟩, ⟨false, 0b11, 0⟩],
      (endBuffer (step ((st .ipv4 true (cells4 1 2 3 4) []).present x))).isSome = true := by decide
/-- EveryStepKeepsUpperCellsZero: the invariant where it says something, and a step from there. -/
theorem witness_invariant_step : (st .ipv4 true (cells4 0xFF 0xFF 0xFF 0xFF) [⟨false, 0b11, 0⟩]).UpperCellsZero ∧
    (cellsOf (step (st .ipv4 true (cells4 0xFF 0xFF 0xFF 0xFF) [⟨false, 0b11, 0⟩]))).isSome = true := by
  refine ⟨fun _ _ => ?_, by decide⟩
  decide
/-- ContentsWithoutValueAreNeverSeen: two different states that are not loaded, with the same absent buffer
and the same moment. -/
theorem witness_hidden : (st .ipv4 false (cells4 1 2 3 4) []).loaded = false ∧
    (st .ipv4 false (cells4 1 2 3 4) []).buffer? = (st .ipv6 false fe80ffff []).buffer? ∧
    (st .ipv4 false (cells4 1 2 3 4) []).draws = (st .ipv6 false fe80ffff []).draws ∧
    st .ipv4 false (cells4 1 2 3 4) [] ≠ st .ipv6 false fe80ffff [] := by decide
/-- ContentsWithoutValueAreNeverSeen: a run from those two states with an end state from each, in which the
buffer is still absent. -/
theorem witness_hidden_run :
    endBuffer (runSteps [encode .nop] (st .ipv4 false (cells4 1 2 3 4) [])) = some none ∧
    endBuffer (runSteps [encode .nop] (st .ipv6 false fe80ffff [])) = some none := by decide
/-- RunEndsExactlyWhenDisciplined: a disciplined sequence and P4x, from reset. -/
theorem witness_discipline :
    disciplined State.reset.loaded [encode (.ld4 #v[0, 0, 0, 0]), encode .inc] = true ∧
    disciplined State.reset.loaded [resetInput, encode .nop, encode .inc] = false := by decide
/-- MaskingKeepsThePrefix at both ends of the prefix length. -/
theorem witness_prefix_ends : 0 ≤ 8 * 4 ∧ 32 ≤ 8 * 4 ∧ maskedTo 0 (#v[1, 2, 3, 4] : Bytes 4) = #v[0, 0, 0, 0] ∧
    maskedTo 32 (#v[1, 2, 3, 4] : Bytes 4) = #v[1, 2, 3, 4] := by decide
/-- ConstructionLoadsTheBase and the statements about a constructed generator: prefix lengths at both
ends of both families (H2, H4, H7). -/
theorem witness_networks : (Cidr.mk (.ipv4 #v[192, 168, 100, 7]) 32).wf = true ∧
    (Cidr.mk (.ipv4 #v[0, 0, 0, 0]) 0).wf = true ∧ (Cidr.mk (.ipv6 fe80ffff) 128).wf = true ∧
    (Cidr.mk (.ipv6 fe80ffff) 0).wf = true := by decide
/-- A constructed generator: H3, 255.255.255.254/31, and its first call. -/
theorem witness_constructed : ∃ g, construct ⟨.ipv4 #v[255, 255, 255, 254], 31⟩ State.reset = .next g ∧
    g.remaining = 2 ∧ g.block.loaded = true := ⟨_, rfl, rfl, rfl⟩
/-- H3's network ends at the all-ones address. -/
theorem witness_ends_at_ones : networkBase ⟨.ipv4 #v[255, 255, 255, 254], 31⟩ = .ipv4 #v[255, 255, 255, 254] ∧
    val (#v[255, 255, 255, 254] : Bytes 4) + (2 ^ (32 - 31) - 1) = 2 ^ 32 - 1 := by decide
/-- A parser that knows three texts. -/
def threeTexts (t : String) : Option Cidr :=
  if t = "1.2.3.4/33" then some ⟨.ipv4 #v[1, 2, 3, 4], 33⟩
  else if t = "192.168.100.0/24" then some ⟨.ipv4 #v[192, 168, 100, 0], 24⟩
  else none
/-- BadTextIsAParseError: S7 (no parse), a prefix length out of range (H8), and S10. -/
theorem witness_parse : threeTexts "stuff" = none ∧ (∃ c, threeTexts "1.2.3.4/33" = some c ∧ c.wf = false) ∧
    ∃ c, threeTexts "192.168.100.0/24" = some c ∧ c.wf = true :=
  ⟨rfl, ⟨_, rfl, by decide⟩, ⟨_, rfl, by decide⟩⟩
/-- ExhaustedNextChangesNothing and NextSamplesThenIncrements: an exhausted and an active generator over a
loaded block. -/
theorem witness_generators : (Generator.mk (st .ipv4 true (cells4 0 0 0 0) []) 0).remaining = 0 ∧
    0 < (Generator.mk (st .ipv4 true (cells4 0xFF 0xFF 0xFF 0xFC) []) 4).remaining ∧
    (Generator.mk (st .ipv4 true (cells4 0xFF 0xFF 0xFF 0xFC) []) 4).block.loaded = true := by decide

end Sys2Proof.Tests
end

section
/-! PROOFS. The number a byte sequence stands for and its inverse (spec 00_scope.md R10): what `valFirst`
gives on each prefix, what `bytesOf` holds at each index, and that the two undo each other. -/

namespace Sys2Proof.Machine

@[simp] theorem valFirst_zero {W : Nat} (a : Bytes W) (h : 0 ≤ W) : valFirst a 0 h = 0 := rfl

theorem valFirst_succ {W k : Nat} (a : Bytes W) (h : k + 1 ≤ W) :
    valFirst a (k + 1) h = valFirst a k (Nat.le_of_succ_le h) * 256 + a[k].toNat := rfl

@[simp] theorem bytesOf_get (W n i : Nat) (hi : i < W) :
    (bytesOf W n)[i] = BitVec.ofNat 8 (n / 256 ^ (W - 1 - i)) := by
  simp [bytesOf]

theorem two_pow_bits_eq (W : Nat) : 2 ^ (8 * W) = 256 ^ W := pow_mul 2 8 W

/-- One more byte multiplies the weight of every byte before it by 256. -/
theorem valFirst_eq_sum {W : Nat} (a : Bytes W) : ∀ (k : Nat) (h : k ≤ W),
    valFirst a k h = ∑ i : Fin k, (a[i.1]).toNat * 256 ^ (k - 1 - i.1) := by
  intro k
  induction k with
  | zero => intro h; simp
  | succ k ih =>
    intro h
    have weight (i : Fin k) : 256 ^ (k - i.1) = 256 ^ (k - 1 - i.1) * 256 := by
      rw [← pow_succ]
      congr 1
      omega
    rw [valFirst_succ, ih, Fin.sum_univ_castSucc, Finset.sum_mul]
    simp [weight, mul_assoc]

theorem valFirst_lt {W : Nat} (a : Bytes W) : ∀ (k : Nat) (h : k ≤ W), valFirst a k h < 256 ^ k := by
  intro k
  induction k with
  | zero => intro h; simp
  | succ k ih =>
    intro h
    have hpre := ih (Nat.le_of_succ_le h)
    have hbyte := a[k].isLt
    rw [valFirst_succ, pow_succ]
    omega

/-- Dropping the last `d` bytes of a prefix is dividing its value by `256 ^ d`. -/
theorem valFirst_div {W : Nat} (a : Bytes W) (j : Nat) : ∀ (d : Nat) (h : j + d ≤ W),
    valFirst a (j + d) h / 256 ^ d = valFirst a j (Nat.le_of_add_right_le h) := by
  intro d
  induction d with
  | zero => intro h; simp
  | succ d ih =>
    intro h
    have hbyte := a[j + d].isLt
    have hsucc : valFirst a (j + (d + 1)) h =
        valFirst a (j + d) (Nat.le_of_succ_le h) * 256 + a[j + d].toNat := valFirst_succ a h
    have hlast : valFirst a (j + (d + 1)) h / 256 = valFirst a (j + d) (Nat.le_of_succ_le h) := by omega
    rw [pow_succ', ← Nat.div_div_eq_div_mul, hlast, ih]

/-- The first `k` bytes of `bytesOf W n` are the first `k` base-256 digits of `n`, taken modulo `256 ^ W`. -/
theorem valFirst_bytesOf (W n : Nat) : ∀ (k : Nat) (h : k ≤ W),
    valFirst (bytesOf W n) k h = n / 256 ^ (W - k) % 256 ^ k := by
  intro k
  induction k with
  | zero => intro h; simp [Nat.mod_one]
  | succ k ih =>
    intro h
    have hexp : W - k = W - 1 - k + 1 := by omega
    have hexp' : W - (k + 1) = W - 1 - k := by omega
    rw [valFirst_succ, ih, bytesOf_get, BitVec.toNat_ofNat, hexp, hexp', pow_succ 256 (W - 1 - k),
      ← Nat.div_div_eq_div_mul, pow_succ' 256 k, Nat.mod_mul]
    omega

/-- R10: the value of a sequence is its big-endian positional sum. -/
theorem val_eq_sum {W : Nat} (a : Bytes W) :
    val a = ∑ i : Fin W, (a[i]).toNat * 256 ^ (W - 1 - i.1) := valFirst_eq_sum a W (Nat.le_refl W)

/-- R10: the range of a value. -/
theorem val_lt {W : Nat} (a : Bytes W) : val a < 2 ^ (8 * W) := by
  rw [two_pow_bits_eq]
  exact valFirst_lt a W (Nat.le_refl W)

/-- The value of the first `i + 1` bytes, from the value of all of them. -/
theorem val_div {W : Nat} (a : Bytes W) (i : Nat) (hi : i < W) :
    val a / 256 ^ (W - 1 - i) = valFirst a i (Nat.le_of_lt hi) * 256 + a[i].toNat := by
  have hW : i + 1 + (W - 1 - i) = W := by omega
  have h := valFirst_div a (i + 1) (W - 1 - i) (Nat.le_of_eq hW)
  simp only [hW] at h
  exact h

/-- R10: a sequence is the `bytesOf` of its value. -/
theorem bytesOf_val {W : Nat} (a : Bytes W) : bytesOf W (val a) = a := by
  ext i hi : 1
  rw [bytesOf_get _ _ i hi, val_div a i hi]
  apply BitVec.eq_of_toNat_eq
  have hbyte := a[i].isLt
  rw [BitVec.toNat_ofNat]
  omega

/-- For every `n`, in range or not. -/
theorem val_bytesOf (W n : Nat) : val (bytesOf W n) = n % 2 ^ (8 * W) := by
  rw [val, valFirst_bytesOf, two_pow_bits_eq, Nat.sub_self, pow_zero, Nat.div_one]

/-- Settles O9: the positional sum by induction on the prefix read, `bytesOf_val` and `val_bytesOf` for the
two inverse directions. -/
theorem valueAndBytesAreInverse : Obligations.ValueAndBytesAreInverse := by
  intro W _
  refine ⟨val_eq_sum, fun a => ⟨val_lt a, bytesOf_val a⟩, fun n hn => ?_⟩
  rw [val_bytesOf, Nat.mod_eq_of_lt hn]

end Sys2Proof.Machine
end

section
/-! PROOFS. The registers `FAM`, `LOADED` and the upper cells along a step (spec 10_state.md R16, R17): what a
transition leaves in `LOADED`, and that every step keeps cells 4 to 15 at 0x00 in 4-byte mode. -/

namespace Sys2Proof.Machine

/-! The upper cells, one lemma per update of the registers. -/

theorem State.upperCellsZero_of_unloaded {s : State} (h : s.loaded = false) : s.UpperCellsZero := by
  simp [State.UpperCellsZero, h]

theorem State.upperCellsZero_of_ipv6 {s : State} (h : s.fam = .ipv6) : s.UpperCellsZero := by
  simp [State.UpperCellsZero, h]

/-- `LD4` writes 0x00 to cells 4 to 15, whatever they held (R64). -/
theorem State.upperCellsZero_load_ld4 (s : State) (q : Bytes 4) :
    (s.load .ipv4 (writeSeq q zeroCells)).UpperCellsZero := by
  intro _ _ j hj
  have hcell := writeSeq_get q zeroCells j.1 j.isLt
  rw [dif_neg (Nat.not_lt.mpr hj), zeroCells_get] at hcell
  exact hcell

@[simp] theorem State.upperCellsZero_advance (s : State) (r : List PortInput) :
    (s.advance r).UpperCellsZero ↔ s.UpperCellsZero := Iff.rfl

/-- `INC` writes no cell from `W` on, and `W` = 4 in 4-byte mode (R63). -/
theorem State.UpperCellsZero.incremented {s : State} (h : s.UpperCellsZero) : s.incremented.UpperCellsZero := by
  intro hl hf j hj
  rw [State.incremented_loaded] at hl
  rw [State.incremented_fam] at hf
  have hw : s.fam.width ≤ j.1 := by rw [hf]; exact hj
  exact (s.incremented_get_of_ge j.1 j.isLt hw).trans (h hl hf j hj)

theorem exec_preserves_upperCellsZero {i : Instr} {s t : State} (hs : s.UpperCellsZero)
    (h : exec i s = .next t) : t.UpperCellsZero := by
  obtain ⟨-, rfl⟩ | ⟨q, -, rfl⟩ | ⟨q, -, rfl⟩ | ⟨-, -, rfl⟩ := exec_next_cases h
  · exact hs
  · exact s.upperCellsZero_load_ld4 q
  · exact State.upperCellsZero_of_ipv6 (s.load_fam .ipv6 q)
  · exact hs.incremented

/-- Settles O33: a reset unloads the buffer, and a command keeps the invariant
(`exec_preserves_upperCellsZero`). -/
theorem everyStepKeepsUpperCellsZero : Obligations.EveryStepKeepsUpperCellsZero := by
  intro s t hs h
  obtain ⟨x, rest, -, ⟨-, rfl⟩ | ⟨-, hexec⟩⟩ := step_next_cases h
  · exact State.upperCellsZero_of_unloaded (State.clear_loaded _)
  · exact exec_preserves_upperCellsZero ((s.upperCellsZero_advance rest).mpr hs) hexec

/-! The step that a presented input makes, by its transition (R35). -/

theorem step_present_of_reset {x : PortInput} (s : State) (h : x.transition = .reset) :
    step (s.present x) = .next (s.advance s.inputs).clear := by
  simp [step, State.fetch, h]

theorem step_present_of_command {x : PortInput} {i : Instr} (s : State) (h : x.transition = .command i) :
    step (s.present x) = exec i (s.advance s.inputs) := by
  simp [step, State.fetch, h]

/-- What a transition that completes leaves in `LOADED`, by what `LOADED` was (R16). -/
def loadedAfter (l : Bool) : Transition → Bool
  | .reset => false
  | .command (.ld4 _) => true
  | .command (.ld16 _) => true
  | .command .nop => l
  | .command .inc => l

theorem exec_next_loaded {i : Instr} {s t : State} (h : exec i s = .next t) :
    t.loaded = loadedAfter s.loaded (.command i) := by
  obtain ⟨rfl, rfl⟩ | ⟨q, rfl, rfl⟩ | ⟨q, rfl, rfl⟩ | ⟨rfl, -, rfl⟩ := exec_next_cases h <;> rfl

theorem step_present_next_loaded {x : PortInput} {s t : State} (h : step (s.present x) = .next t) :
    t.loaded = loadedAfter s.loaded x.transition := by
  cases hx : x.transition with
  | reset =>
    rw [step_present_of_reset s hx] at h
    cases h
    rfl
  | command i =>
    rw [step_present_of_command s hx] at h
    rw [exec_next_loaded h, State.advance_loaded]

/-- R21: `loaded_o` is the bit of `LOADED`. -/
theorem State.loadedO_eq (s : State) : s.loadedO = BitVec.ofBool s.loaded := by
  cases h : s.loaded <;> simp [State.loadedO, h]

/-- Settles O31: `step_present_next_loaded` read off for each transition, with the two views of `LOADED`. -/
theorem loadedIsWrittenByLoadsAndResetOnly : Obligations.LoadedIsWrittenByLoadsAndResetOnly := by
  intro s t x h
  have hl := step_present_next_loaded h
  refine ⟨fun hx => ?_, fun q hx => ?_, fun q hx => ?_, ?_, t.buffer?_isSome, t.loadedO_eq⟩
  · rw [hl, hx, loadedAfter]
  · rw [hl, hx, loadedAfter]
  · rw [hl, hx, loadedAfter]
  · rintro (hx | hx) <;> rw [hl, hx, loadedAfter]

end Sys2Proof.Machine
end

section
/-! PROOFS. The number on a bus (spec 10_state.md R20, R30): a byte lane is a base-256 digit of it, so the first
`W` lanes are `bytesOf` its upper `8 * W` bits, and what is known of `bytesOf` gives their value. -/

namespace Sys2Proof

/-- R20: where lane `i` stands in the number on the bus. -/
theorem lane_toNat (v : Bus) (i : Nat) : (lane v i).toNat = v.toNat / 2 ^ (120 - 8 * i) % 2 ^ 8 := by
  rw [lane, BitVec.extractLsb'_toNat, Nat.shiftRight_eq_div_pow]

end Sys2Proof

namespace Sys2Proof.Machine

theorem lanes_eq_bytesOf {W : Nat} (hW : W ≤ 16) (v : Bus) :
    lanes W v = bytesOf W (v.toNat / 2 ^ (128 - 8 * W)) := by
  ext i hi : 1
  have hexp : 128 - 8 * W + 8 * (W - 1 - i) = 120 - 8 * i := by omega
  apply BitVec.eq_of_toNat_eq
  rw [lanes_get, lane_toNat, bytesOf_get _ _ i hi, BitVec.toNat_ofNat, ← two_pow_bits_eq, Nat.div_div_eq_div_mul,
    ← pow_add, hexp]

/-- R30: the first `W` lanes read as one number are the upper `8 * W` bits of the bus. -/
theorem val_lanes {W : Nat} (hW : W ≤ 16) (v : Bus) : val (lanes W v) = v.toNat / 2 ^ (128 - 8 * W) := by
  have hexp : 128 - 8 * W + 8 * W = 128 := by omega
  have hlt : v.toNat / 2 ^ (128 - 8 * W) < 2 ^ (8 * W) := by
    apply Nat.div_lt_of_lt_mul
    rw [← pow_add, hexp]
    exact v.isLt
  rw [lanes_eq_bytesOf hW, val_bytesOf, Nat.mod_eq_of_lt hlt]

theorem val_lanes_sixteen (v : Bus) : val (lanes 16 v) = v.toNat := by
  rw [val_lanes (Nat.le_refl 16), Nat.sub_self, pow_zero, Nat.div_one]

/-- The number on a packed bus, from its lanes. -/
theorem pack_toNat (a : Bytes 16) : (pack a).toNat = val a := by
  rw [← val_lanes_sixteen, lanes_pack]

/-- Settles O3: `lane_toNat` for the bit positions, `val_lanes` at both widths, and `lanes_pack` for the bus
that carries a sequence. -/
theorem busNumberIsSequenceValue : Obligations.BusNumberIsSequenceValue :=
  ⟨fun v i _ => lane_toNat v i, val_lanes_sixteen, val_lanes (W := 4) (by decide),
    fun a => ⟨pack_toNat a, lanes_pack a⟩⟩

end Sys2Proof.Machine
end

section
/-! PROOFS. The decoder (spec 30_encoding.md R43 to R45): its equation for each value of `op`, and what a load takes
from `din`. -/

namespace Sys2Proof

/-! The table of R44, one row each. -/

@[simp] theorem decode_zero (din : Bus) : decode 0b00#2 din = .nop := rfl
@[simp] theorem decode_one (din : Bus) : decode 0b01#2 din = .ld4 (lanes 4 din) := rfl
@[simp] theorem decode_two (din : Bus) : decode 0b10#2 din = .ld16 (lanes 16 din) := rfl
@[simp] theorem decode_three (din : Bus) : decode 0b11#2 din = .inc := rfl

/-- R45: the command is known from `op` alone. -/
@[simp] theorem opcode_decode (op : BitVec 2) (din : Bus) : (decode op din).opcode = op := by
  fun_cases decode op din with
  | case1 => rfl
  | case2 => rfl
  | case3 => rfl
  | case4 => rfl

theorem PortInput.transition_of_rst {x : PortInput} (h : x.rst = true) : x.transition = .reset := by
  rw [PortInput.transition, if_pos h]

theorem PortInput.transition_of_not_rst {x : PortInput} (h : x.rst = false) :
    x.transition = .command (decode x.op x.din) := by
  rw [PortInput.transition, if_neg (Bool.eq_false_iff.mp h)]

/-- Settles O1: the four rows of the table, `opcode_decode`, and the two values of `rst`. -/
theorem decodingIsTheTableOfFourOpcodes : Obligations.DecodingIsTheTableOfFourOpcodes :=
  ⟨decode_zero, fun din => ⟨_, decode_one din⟩, fun din => ⟨_, decode_two din⟩, decode_three, opcode_decode,
    fun _ => PortInput.transition_of_not_rst, fun _ => PortInput.transition_of_rst⟩

end Sys2Proof

namespace Sys2Proof.Machine

/-- R43: byte `i` of the lanes is bus bits `[127-8*i : 120-8*i]`. -/
theorem lanes_get_toNat {W : Nat} (v : Bus) (i : Nat) (h : i < W) :
    ((lanes W v)[i]).toNat = v.toNat / 2 ^ (120 - 8 * i) % 2 ^ 8 := by
  rw [lanes_get, lane_toNat]

/-- The bits below the first `W` lanes do not count (R43). -/
theorem lanes_congr {W : Nat} (hW : W ≤ 16) {v w : Bus}
    (h : v.toNat / 2 ^ (128 - 8 * W) = w.toNat / 2 ^ (128 - 8 * W)) : lanes W v = lanes W w := by
  rw [lanes_eq_bytesOf hW, lanes_eq_bytesOf hW, h]

/-- Settles O2: `lanes_get_toNat` at both widths, and `lanes_congr` for the bits that `LD4` ignores. -/
theorem operandsAreTheByteLanes : Obligations.OperandsAreTheByteLanes := by
  refine ⟨fun din => ⟨_, decode_one din, lanes_get_toNat din⟩, fun din din' h => ?_,
    fun din => ⟨_, decode_two din, lanes_get_toNat din⟩, decode_zero, decode_three⟩
  exact congrArg Instr.ld4 (lanes_congr (W := 4) (by decide) h)

end Sys2Proof.Machine
end

section
/-! PROOFS. The software call `Increment` on the block (spec 30_encoding.md R51): an encoded command presented in
a run is executed, and a sample after `INC` is the incremented sequence. -/

namespace Sys2Proof

/-- What the encoder presents is the command itself (R42, R48). -/
@[simp] theorem transition_encode (i : Instr) : (encode i).transition = .command i := by
  rw [PortInput.transition_of_not_rst rfl]
  cases i with
  | nop => rfl
  | ld4 q => exact congrArg (Transition.command ∘ Instr.ld4) (lanes_pack_padLanes q)
  | ld16 q => exact congrArg (Transition.command ∘ Instr.ld16) (lanes_pack q)
  | inc => rfl

end Sys2Proof

namespace Sys2Proof.Machine

/-- A run that begins with an encoded command executes it and goes on. -/
theorem runSteps_encode_cons (i : Instr) (xs : List PortInput) (s : State) :
    runSteps (encode i :: xs) s = andThen (exec i (s.advance s.inputs)) (runSteps xs) := by
  rw [runSteps_cons, step_present_of_command s (transition_encode i)]

/-- A command that leaves a loaded buffer, then one `INC`. -/
theorem runSteps_encode_inc {i : Instr} {s t : State} (h : exec i (s.advance s.inputs) = .next t)
    (hl : t.loaded = true) : runSteps [encode i, encode .inc] s = .next (t.advance t.inputs).incremented := by
  have hinc : exec .inc (t.advance t.inputs) = .next (t.advance t.inputs).incremented := execInc_loaded hl
  rw [runSteps_encode_cons, h, andThen_next, runSteps_encode_cons, hinc, andThen_next, runSteps_nil]

theorem State.sample_incremented_ipv4 {s : State} (hl : s.loaded = true) (hf : s.fam = .ipv4) (k : Nat) :
    s.incremented.sample k = .ipv4 (inc (readSeq 4 (by decide) s.a)) := by
  have hl' : s.incremented.loaded = true := hl
  rw [State.sample_of_loaded hl', State.incremented_fam, hf, State.incremented_ipv4 hf, State.setCells_a,
    Buffer.address, readSeq_writeSeq]

theorem State.sample_incremented_ipv6 {s : State} (hl : s.loaded = true) (hf : s.fam = .ipv6) (k : Nat) :
    s.incremented.sample k = .ipv6 (inc s.a) := by
  have hl' : s.incremented.loaded = true := hl
  rw [State.sample_of_loaded hl', State.incremented_fam, hf, State.incremented_ipv6 hf, State.setCells_a,
    Buffer.address, readSeq_sixteen]

/-- Settles O38: the load leaves a loaded buffer of its family, the `INC` completes on it
(`runSteps_encode_inc`), and the sample is the incremented sequence. -/
theorem incrementCallOnTheBlock : Obligations.IncrementCallOnTheBlock := by
  refine ⟨fun q s k => ?_, fun q s k => ?_⟩
  · refine ⟨_, runSteps_encode_inc (exec_ld4 q _) (State.load_loaded ..), ?_⟩
    rw [State.sample_incremented_ipv4 rfl rfl, State.advance_a, State.load_a, readSeq_writeSeq]
  · refine ⟨_, runSteps_encode_inc (exec_ld16 q _) (State.load_loaded ..), ?_⟩
    rw [State.sample_incremented_ipv6 rfl rfl, State.advance_a, State.load_a]

end Sys2Proof.Machine
end

section
/-! PROOFS. The bytes of an increment (spec 40_increment.md R54, R56 to R58): what the scan leaves at each index,
by whether the carry reaches it, and the carry chain that says the same of every byte at once. -/

namespace Sys2Proof.Machine

/-- All the bytes of index `i` and above are 0xFF: the carry of an increment leaves them at index `i`
(R57, `carry_eq_one_iff_onesFrom`). -/
def OnesFrom {W : Nat} (a : Bytes W) (i : Nat) : Prop := ∀ (j : Nat) (hj : j < W), i ≤ j → a[j] = 0xFF

theorem OnesFrom.mono {W : Nat} {a : Bytes W} {i i' : Nat} (h : OnesFrom a i) (hi : i ≤ i') : OnesFrom a i' :=
  fun j hj hij => h j hj (Nat.le_trans hi hij)

theorem onesFrom_width {W : Nat} (a : Bytes W) : OnesFrom a W := fun _ hj hWj => absurd hj (Nat.not_lt.mpr hWj)

theorem onesFrom_iff_succ {W : Nat} {a : Bytes W} {i : Nat} (hi : i < W) :
    OnesFrom a i ↔ OnesFrom a (i + 1) ∧ a[i] = 0xFF := by
  refine ⟨fun h => ⟨h.mono (Nat.le_succ i), h i hi (Nat.le_refl i)⟩, fun ⟨habove, hbyte⟩ j hj hij => ?_⟩
  obtain rfl | hlt := Nat.eq_or_lt_of_le hij
  · exact hbyte
  · exact habove j hj hlt

/-! The scan, by index. -/

/-- The carry reaches index `j` when every byte between it and the start of the scan wraps. -/
theorem incScan_get_of_ones {W j : Nat} : ∀ (k : Nat) (h : k ≤ W) (a : Bytes W) (hj : j < k),
    (∀ (i : Nat) (hi : i < k), j < i → a[i] = 0xFF) → (incScan k h a)[j] = a[j] + 1 := by
  intro k
  induction k with
  | zero => intro h a hj; exact absurd hj (Nat.not_lt_zero j)
  | succ k ih =>
    intro h a hj hones
    obtain rfl | hjk : j = k ∨ j < k := by omega
    · by_cases hb : a[j] = 0xFF
      · rw [incScan_wraps h a hb, incScan_get_of_ge _ _ _ j h (Nat.le_refl j), Vector.getElem_set_self, hb]
        rfl
      · rw [incScan_absorbs h a hb, Vector.getElem_set_self]
    · rw [incScan_wraps h a (hones k (Nat.lt_succ_self k) hjk), ih _ _ hjk, Vector.getElem_set_ne _ _ (by omega)]
      intro i hi hji
      rw [Vector.getElem_set_ne _ _ (by omega)]
      exact hones i (by omega) hji

/-- The carry never gets past a byte that is not 0xFF. -/
theorem incScan_get_of_ne {W i j : Nat} (hji : j < i) : ∀ (k : Nat) (h : k ≤ W) (a : Bytes W) (hi : i < k),
    a[i] ≠ 0xFF → (incScan k h a)[j] = a[j] := by
  intro k
  induction k with
  | zero => intro h a hi; exact absurd hi (Nat.not_lt_zero i)
  | succ k ih =>
    intro h a hi hne
    by_cases hb : a[k] = 0xFF
    · have hik : i ≠ k := by rintro rfl; exact hne hb
      rw [incScan_wraps h a hb, ih _ _ (by omega), Vector.getElem_set_ne _ _ (by omega)]
      rwa [Vector.getElem_set_ne _ _ (by omega)]
    · rw [incScan_absorbs h a hb, Vector.getElem_set_ne _ _ (by omega)]

/-! The increment, by index. -/

theorem inc_get_of_onesFrom {W j : Nat} {a : Bytes W} (hj : j < W) (h : OnesFrom a (j + 1)) :
    (inc a)[j] = a[j] + 1 := incScan_get_of_ones W (Nat.le_refl W) a hj h

theorem inc_get_of_ne {W i j : Nat} {a : Bytes W} (hi : i < W) (hne : a[i] ≠ 0xFF) (hji : j < i) :
    (inc a)[j] = a[j] := incScan_get_of_ne hji W (Nat.le_refl W) a hi hne

/-- The carry reaches index `j` and goes on past it. -/
theorem inc_get_eq_zero {W j : Nat} {a : Bytes W} (hj : j < W) (h : OnesFrom a j) : (inc a)[j] = 0x00 := by
  rw [inc_get_of_onesFrom hj (h.mono (Nat.le_succ j)), h j hj (Nat.le_refl j)]
  rfl

theorem inc_get_of_not_onesFrom {W j : Nat} {a : Bytes W} (hj : j < W) (h : ¬ OnesFrom a (j + 1)) :
    (inc a)[j] = a[j] := by
  simp only [OnesFrom, not_forall] at h
  obtain ⟨i, hi, hji, hne⟩ := h
  exact inc_get_of_ne hi hne hji

/-- A byte changes exactly when the carry reaches it. -/
theorem inc_get_ne_iff {W j : Nat} {a : Bytes W} (hj : j < W) : (inc a)[j] ≠ a[j] ↔ OnesFrom a (j + 1) := by
  refine ⟨fun hne => ?_, fun h => ?_⟩
  · by_contra h
    exact hne (inc_get_of_not_onesFrom hj h)
  · rw [inc_get_of_onesFrom hj h]
    bv_omega

/-! The carry chain. -/

theorem carry_width {W : Nat} (a : Bytes W) : carry a W = 1 := by
  simp [carry, carryAbove]

theorem carry_eq_div {W i : Nat} (a : Bytes W) (hi : i < W) :
    carry a i = (a[i].toNat + carry a (i + 1)) / 256 := by
  obtain ⟨d, rfl⟩ : ∃ d, W = i + (d + 1) := ⟨W - i - 1, by omega⟩
  have hi' : i + (d + 1) - i = d + 1 := by omega
  have hsucc : i + (d + 1) - (i + 1) = d := by omega
  have hidx : i + (d + 1) - (d + 1) = i := by omega
  simp only [carry, hi', hsucc, carryAbove, hidx]

theorem carry_le_one {W i : Nat} (a : Bytes W) (hi : i ≤ W) : carry a i ≤ 1 := by
  induction hi using Nat.decreasingInduction with
  | self => rw [carry_width]
  | of_succ i hi ih =>
    have hbyte := a[i].isLt
    rw [carry_eq_div a hi]
    omega

/-- R57: an index passes the carry on when the carry comes in and its byte is 0xFF. -/
theorem carry_eq_one_iff_succ {W i : Nat} (a : Bytes W) (hi : i < W) :
    carry a i = 1 ↔ carry a (i + 1) = 1 ∧ a[i] = 0xFF := by
  have hin : carry a (i + 1) ≤ 1 := carry_le_one a hi
  have hbyte := a[i].isLt
  have hones : a[i] = 0xFF ↔ a[i].toNat = 255 := BitVec.toNat_inj.symm
  rw [carry_eq_div a hi, hones]
  omega

theorem carry_eq_one_iff_onesFrom {W i : Nat} (a : Bytes W) (hi : i ≤ W) : carry a i = 1 ↔ OnesFrom a i := by
  induction hi using Nat.decreasingInduction with
  | self => exact iff_of_true (carry_width a) (onesFrom_width a)
  | of_succ i hi ih => rw [carry_eq_one_iff_succ a hi, ih, ← onesFrom_iff_succ hi]

theorem carry_eq_zero_or_one {W i : Nat} (a : Bytes W) (hi : i ≤ W) : carry a i = 0 ∨ carry a i = 1 :=
  Nat.le_one_iff_eq_zero_or_eq_one.mp (carry_le_one a hi)

/-- R57: every byte of the scan's result is its own byte plus the carry that comes in. -/
theorem inc_get_toNat {W i : Nat} (a : Bytes W) (hi : i < W) :
    (inc a)[i].toNat = (a[i].toNat + carry a (i + 1)) % 256 := by
  have hones := carry_eq_one_iff_onesFrom a (Nat.succ_le_of_lt hi)
  obtain hc | hc := carry_eq_zero_or_one a (Nat.succ_le_of_lt hi)
  · have hnot : ¬ OnesFrom a (i + 1) := by rw [← hones, hc]; exact Nat.zero_ne_one
    rw [inc_get_of_not_onesFrom hi hnot, hc, Nat.add_zero, Nat.mod_eq_of_lt a[i].isLt]
  · rw [inc_get_of_onesFrom hi (hones.mp hc), hc, BitVec.toNat_add]
    rfl

theorem incByCarries_eq_inc {W : Nat} (a : Bytes W) : incByCarries a = inc a := by
  ext i hi : 1
  apply BitVec.eq_of_toNat_eq
  simp [incByCarries, inc_get_toNat a hi]

/-- Settles O12: the equations of the chain (`carry_width`, `carry_eq_div`), the bytes of the scan in its terms
(`inc_get_toNat`), and the two readings of a carry. -/
theorem incrementIsTheCarryChain : Obligations.IncrementIsTheCarryChain := by
  intro W _ a
  exact ⟨carry_width a, incByCarries_eq_inc a, fun i hi => ⟨carry_eq_div a hi, inc_get_toNat a hi,
    carry_eq_zero_or_one a hi.le, carry_eq_one_iff_succ a hi, carry_eq_one_iff_onesFrom a hi.le⟩⟩

/-! The value of an increment. -/

/-- A byte of the increment and the carry it passes on are the byte and the carry that comes in. -/
theorem inc_get_add_carry {W k : Nat} (a : Bytes W) (hk : k < W) :
    (inc a)[k].toNat + 256 * carry a k = a[k].toNat + carry a (k + 1) := by
  rw [inc_get_toNat a hk, carry_eq_div a hk, Nat.mod_add_div]

/-- On the first `k` bytes the increment adds the carry that comes into them, but for what leaves index 0. -/
theorem valFirst_inc_add_carry {W : Nat} (a : Bytes W) : ∀ (k : Nat) (h : k ≤ W),
    valFirst (inc a) k h + 256 ^ k * carry a 0 = valFirst a k h + carry a k := by
  intro k
  induction k with
  | zero => intro h; simp
  | succ k ih =>
    intro h
    have hpre := ih (Nat.le_of_succ_le h)
    have hbyte := inc_get_add_carry a h
    rw [valFirst_succ, valFirst_succ, pow_succ]
    linarith

/-- R55, the value law: the carry out of index 0 is what the modulus drops. -/
theorem val_inc {W : Nat} (a : Bytes W) : val (inc a) = (val a + 1) % 2 ^ (8 * W) := by
  have hsum : val (inc a) + 256 ^ W * carry a 0 = val a + carry a W :=
    valFirst_inc_add_carry a W (Nat.le_refl W)
  rw [carry_width, ← two_pow_bits_eq] at hsum
  rw [← hsum, Nat.add_mul_mod_self_left, Nat.mod_eq_of_lt (val_lt (inc a))]

theorem inc_eq_bytesOf {W : Nat} (a : Bytes W) : inc a = bytesOf W ((val a + 1) % 2 ^ (8 * W)) := by
  rw [← val_inc, bytesOf_val]

/-- Settles O10: the value law, proved along the carry chain (`valFirst_inc_add_carry`), and `bytesOf_val`. -/
theorem incrementAddsOneModuloWidth : Obligations.IncrementAddsOneModuloWidth :=
  fun _ _ a => ⟨val_inc a, inc_eq_bytesOf a⟩

/-! The closed form (R56). -/

/-- The absorbing byte grows without a wrap. -/
theorem toNat_add_one_of_ne_ones {b : Byte} (h : b ≠ 0xFF) : (b + 1).toNat = b.toNat + 1 := by
  bv_omega

/-- With every byte 0xFF every byte changes. -/
theorem card_changed_of_ones {W : Nat} {a : Bytes W} (h : OnesFrom a 0) :
    (Finset.univ.filter fun j : Fin W => (inc a)[j] ≠ a[j]).card = W := by
  have hall : ∀ j ∈ (Finset.univ : Finset (Fin W)), (inc a)[j] ≠ a[j] :=
    fun j _ => (inc_get_ne_iff j.isLt).mpr (h.mono (Nat.zero_le _))
  rw [Finset.filter_true_of_mem hall, Finset.card_univ, Fintype.card_fin]

/-- The bytes that change are those from the absorbing index on. -/
theorem card_changed_of_absorbs {W p : Nat} {a : Bytes W} (hp : p < W) (hne : a[p] ≠ 0xFF)
    (hones : OnesFrom a (p + 1)) :
    (Finset.univ.filter fun j : Fin W => (inc a)[j] ≠ a[j]).card = W - p := by
  have hset : (Finset.univ.filter fun j : Fin W => (inc a)[j] ≠ a[j]) = Finset.Ici ⟨p, hp⟩ := by
    ext j
    rw [Finset.mem_filter_univ, Finset.mem_Ici, Fin.le_def]
    refine (inc_get_ne_iff j.isLt).trans ⟨fun h => ?_, fun hpj => hones.mono (Nat.succ_le_succ hpj)⟩
    by_contra hjp
    exact hne (h p hp (Nat.lt_of_not_le hjp))
  rw [hset, Fin.card_Ici]

/-- Settles O11: the absorbing index is `W - 1 - k`, and each byte is read off by its side of that index. -/
theorem incrementClosedForm : Obligations.IncrementClosedForm := by
  intro W _ a k hk htrail habsorb
  have hones : OnesFrom a (W - k) := fun j hj hkj => htrail j hj (by omega)
  refine ⟨fun hkW j hj => inc_get_eq_zero hj (hones.mono (by omega)), fun hkW j hj => ⟨?_, ?_, ?_⟩, ?_⟩
  · exact inc_get_of_ne (by omega) (habsorb hkW)
  · rintro rfl
    rw [inc_get_of_onesFrom hj (hones.mono (by omega)), toNat_add_one_of_ne_ones (habsorb hkW)]
  · exact fun hlt => inc_get_eq_zero hj (hones.mono (by omega))
  · split
    next hkW =>
      rw [card_changed_of_absorbs (by omega) (habsorb hkW) (hones.mono (by omega))]
      omega
    next hkW => exact card_changed_of_ones (hones.mono (by omega))

end Sys2Proof.Machine
end

section
/-! PROOFS. The command `INC` (spec 40_increment.md R58, R61, R63): its one way to complete, and the cells it leaves
in each family. -/

namespace Sys2Proof.Machine

/-- `INC` completes on a loaded buffer only, and with the incremented state (R61). -/
theorem exec_inc_next {s t : State} (h : exec .inc s = .next t) : s.loaded = true ∧ t = s.incremented := by
  obtain ⟨hi, -⟩ | ⟨q, hi, -⟩ | ⟨q, hi, -⟩ | ⟨-, hl, ht⟩ := exec_next_cases h
  · cases hi
  · cases hi
  · cases hi
  · exact ⟨hl, ht⟩

theorem State.incremented_get_of_lt (s : State) {j : Nat} (hj : j < s.fam.width) :
    s.incremented.a[j]'(Nat.lt_of_lt_of_le hj (width_le s.fam)) =
      (inc (readSeq s.fam.width (width_le s.fam) s.a))[j] := by
  rw [← s.readSeq_incremented, readSeq_get]

/-- Settles O19: `INC` completes exactly on a loaded buffer, and `State.readSeq_incremented` and
`State.incremented_get_of_ge` say what it leaves in the cells. -/
theorem incIncrementsTheBufferInPlace : Obligations.IncIncrementsTheBufferInPlace :=
  fun s => ⟨fun hl => ⟨s.incremented, execInc_loaded hl, s.readSeq_incremented,
    fun j hj => s.incremented_get_of_ge j j.isLt hj, s.incremented_fam, hl, s.incremented_inputs,
    s.incremented_draws⟩, execInc_unloaded⟩

/-- R58: a buffer whose `W` bytes are all 0xFF wraps. -/
theorem State.incremented_get_of_ones {s : State}
    (h : ∀ j : Fin 16, j.1 < s.fam.width → s.a[j] = 0xFF) (j : Fin 16) (hj : j.1 < s.fam.width) :
    s.incremented.a[j] = 0x00 := by
  have hones : OnesFrom (readSeq s.fam.width (width_le s.fam) s.a) j := by
    intro i hi _
    rw [readSeq_get]
    exact h ⟨i, Nat.lt_of_lt_of_le hi (width_le s.fam)⟩ hi
  exact (s.incremented_get_of_lt hj).trans (inc_get_eq_zero hj hones)

/-- Settles O13: every index of an all-0xFF sequence takes the carry and passes it on (`inc_get_eq_zero`), in the
primitive and in the buffer. -/
theorem allOnesWrapsToZerosSilently : Obligations.AllOnesWrapsToZerosSilently := by
  refine ⟨fun W _ => ?_, fun s hl hones => ⟨s.incremented, execInc_loaded hl, s.incremented_get_of_ones hones,
    fun j hj => s.incremented_get_of_ge j j.isLt hj, s.incremented_fam, hl, s.incremented_inputs,
    s.incremented_draws⟩⟩
  have hones : OnesFrom (Vector.replicate W (0xFF : Byte)) 0 := fun _ hj _ => Vector.getElem_replicate hj
  ext j hj : 1
  rw [inc_get_eq_zero hj (hones.mono (Nat.zero_le j)), Vector.getElem_replicate]

/-- The first `W` cells after `INC` depend on the first `W` cells alone (R63). -/
theorem State.incremented_get_congr {s s' : State} (hf : s.fam = s'.fam)
    (h : ∀ j : Fin 16, j.1 < s.fam.width → s.a[j] = s'.a[j]) (j : Fin 16) (hj : j.1 < s.fam.width) :
    s.incremented.a[j] = s'.incremented.a[j] := by
  obtain ⟨a', f', l', i', d'⟩ := s'
  cases hf
  have hseq : readSeq s.fam.width (width_le s.fam) s.a = readSeq s.fam.width (width_le s.fam) a' := by
    ext i hi : 1
    rw [readSeq_get, readSeq_get]
    exact h ⟨i, Nat.lt_of_lt_of_le hi (width_le s.fam)⟩ hi
  refine (s.incremented_get_of_lt hj).trans ?_
  rw [hseq]
  exact (State.incremented_get_of_lt ⟨a', s.fam, l', i', d'⟩ hj).symm

theorem State.incremented_a_ipv6 {s : State} (hf : s.fam = .ipv6) : s.incremented.a = inc s.a := by
  rw [State.incremented_ipv6 hf, State.setCells_a]

/-- Settles O20: in 4-byte mode the general facts about the first `W` cells and the others, in 16-byte mode the
bytes of `inc` on either side of index 11. -/
theorem incStaysInsideItsWidth : Obligations.IncStaysInsideItsWidth := by
  refine ⟨fun s t hf h => ?_, fun s s' t t' hf hf' hcells h h' => ?_, fun s t hf h => ?_⟩
  · obtain ⟨-, rfl⟩ := exec_inc_next h
    have hw : s.fam.width = 4 := by rw [hf]
    rw [← hw]
    exact ⟨fun j hj => s.incremented_get_of_ge j j.isLt hj, hf, s.incremented_get_of_ones⟩
  · obtain ⟨-, rfl⟩ := exec_inc_next h
    obtain ⟨-, rfl⟩ := exec_inc_next h'
    have hw : s.fam.width = 4 := by rw [hf]
    rw [← hw] at hcells ⊢
    exact State.incremented_get_congr (hf.trans hf'.symm) hcells
  · obtain ⟨-, rfl⟩ := exec_inc_next h
    refine ⟨hf, fun htrail habsorb => ?_⟩
    have hones : OnesFrom s.a 12 := fun j hj hle => htrail ⟨j, hj⟩ hle
    rw [State.incremented_a_ipv6 hf]
    exact ⟨inc_get_of_onesFrom (by decide) hones, fun j hj => inc_get_eq_zero j.isLt (hones.mono hj),
      fun j hj => inc_get_of_ne (by decide) habsorb hj⟩

end Sys2Proof.Machine
end

section
/-! PROOFS. The loads and idle (spec 41_load_idle.md R64 to R67): what a load leaves in the registers, and that a run
of the block is a run on its buffer, absent or present, in which `NOP` is the identity. -/

namespace Sys2Proof.Machine

/-! The loads. -/

/-- A load reads no register: two states of one moment and one list of presented steps are the same after it (R67). -/
theorem State.load_congr {s s' : State} (hi : s.inputs = s'.inputs) (hd : s.draws = s'.draws) (f : Family)
    (c : Bytes 16) : s.load f c = s'.load f c := by
  simp only [State.load, hi, hd]

/-- `LD4` writes its operand to cells 0 to 3 (R64). -/
theorem State.load_ld4_get_of_lt (s : State) (q : Bytes 4) (i : Nat) (h : i < 4) :
    (s.load .ipv4 (writeSeq q zeroCells)).a[i] = q[i] := by
  rw [State.load_a, writeSeq_get, dif_pos h]

/-- Settles O22: a load reads no register (`State.load_congr`); of the four ways a command can complete
(`exec_next_cases`), `NOP` and `INC` keep the family. -/
theorem loadReplacesEverything : Obligations.LoadReplacesEverything := by
  refine ⟨fun i s s' hload hi hd => ?_, fun i s t h hne => ?_⟩
  · obtain ⟨q, rfl⟩ | ⟨q, rfl⟩ := hload
    · rw [exec_ld4, exec_ld4, State.load_congr hi hd]
      exact ⟨rfl, _, rfl, State.load_loaded ..⟩
    · rw [exec_ld16, exec_ld16, State.load_congr hi hd]
      exact ⟨rfl, _, rfl, State.load_loaded ..⟩
  · obtain ⟨-, rfl⟩ | ⟨q, rfl, rfl⟩ | ⟨q, rfl, rfl⟩ | ⟨-, -, rfl⟩ := exec_next_cases h
    · exact absurd rfl hne
    · exact .inl ⟨q, rfl, State.load_fam ..⟩
    · exact .inr ⟨q, rfl, State.load_fam ..⟩
    · exact absurd s.incremented_fam hne

/-- Settles O17: cells 0 to 3 by `State.load_ld4_get_of_lt`, the others by `State.upperCellsZero_load_ld4`; the
operand decoded from `din` is its lanes. -/
theorem ld4LoadsFourBytesAndZeroes : Obligations.Ld4LoadsFourBytesAndZeroes :=
  ⟨fun q s => ⟨_, exec_ld4 q s, s.load_ld4_get_of_lt q, s.upperCellsZero_load_ld4 q rfl rfl, State.load_fam ..,
      State.load_loaded .., State.load_inputs .., State.load_draws ..⟩,
    fun din s => ⟨_, exec_ld4 (lanes 4 din) s,
      fun i h => (s.load_ld4_get_of_lt (lanes 4 din) i h).trans (lanes_get din i h),
      s.upperCellsZero_load_ld4 (lanes 4 din) rfl rfl, State.load_fam .., State.load_loaded ..,
      State.load_inputs .., State.load_draws ..⟩⟩

/-- Settles O18: the cells are the operand, which `decode_two` reads from the lanes of `din`. -/
theorem ld16LoadsSixteenBytes : Obligations.Ld16LoadsSixteenBytes :=
  ⟨fun q s => ⟨_, exec_ld16 q s, rfl, rfl, rfl, rfl, rfl⟩,
    fun din s => ⟨_, exec_ld16 (lanes 16 din) s, fun j => lanes_get din j j.isLt, rfl, rfl, rfl, rfl⟩⟩

/-! The run of the buffer: the only part of the block's state that a run's end buffer depends on. -/

/-- `INC` on a present buffer (R61). -/
def Buffer.incremented (b : Buffer) : Buffer :=
  ⟨b.fam, writeSeq (inc (readSeq b.fam.width (width_le b.fam) b.cells)) b.cells⟩

/-- What a transition does to the buffer, absent or present; `INC` on an absent buffer has no next state (R110). -/
def bufferAfter (b : Option Buffer) : Transition → Option (Option Buffer)
  | .reset => some none
  | .command .nop => some b
  | .command (.ld4 q) => some (some ⟨.ipv4, writeSeq q zeroCells⟩)
  | .command (.ld16 q) => some (some ⟨.ipv6, q⟩)
  | .command .inc => b.map fun c => some c.incremented

/-- The buffer after a run of presented steps; none when a step of it has no next state. -/
def bufferRun (xs : List PortInput) (b : Option Buffer) : Option (Option Buffer) :=
  xs.foldlM (fun b x => bufferAfter b x.transition) b

theorem bufferRun_cons (x : PortInput) (xs : List PortInput) (b : Option Buffer) :
    bufferRun (x :: xs) b = bufferAfter b x.transition >>= bufferRun xs := rfl

theorem endBuffer_exec (i : Instr) (s : State) : endBuffer (exec i s) = bufferAfter s.buffer? (.command i) := by
  cases i with
  | nop => rfl
  | ld4 q => rfl
  | ld16 q => rfl
  | inc =>
    cases hl : s.loaded with
    | true =>
      rw [exec_inc, execInc_loaded hl, endBuffer, State.buffer?_of_loaded hl,
        State.buffer?_of_loaded (s.incremented_loaded.trans hl)]
      rfl
    | false =>
      rw [exec_inc, execInc_unloaded hl, State.buffer?_of_unloaded hl]
      rfl

theorem endBuffer_step_present (x : PortInput) (s : State) :
    endBuffer (step (s.present x)) = bufferAfter s.buffer? x.transition := by
  cases hx : x.transition with
  | reset => rw [step_present_of_reset s hx]; rfl
  | command i => rw [step_present_of_command s hx, endBuffer_exec, State.buffer?_advance]

/-- Going on with a run whose end buffer depends on the buffer alone. -/
theorem endBuffer_andThen {f : State → Host.Outcome State Fault Refusal} {g : Option Buffer → Option (Option Buffer)}
    (hfg : ∀ s, endBuffer (f s) = g s.buffer?) (o : Host.Outcome State Fault Refusal) :
    endBuffer (andThen o f) = endBuffer o >>= g := by
  cases o with
  | next s => exact hfg s
  | fault r => rfl
  | refused r => rfl

/-- The block's run, seen through its buffer, is the run of the buffer. -/
theorem endBuffer_runSteps (xs : List PortInput) (s : State) :
    endBuffer (runSteps xs s) = bufferRun xs s.buffer? := by
  induction xs generalizing s with
  | nil => rfl
  | cons x xs ih => rw [runSteps_cons, endBuffer_andThen ih, endBuffer_step_present, bufferRun_cons]

/-- A step that does not matter presents `NOP`, which leaves the buffer as it is (R66). -/
theorem bufferAfter_of_not_stepMatters {x : PortInput} (h : ¬ stepMatters x = true) (b : Option Buffer) :
    bufferAfter b x.transition = some b := by
  have hnop : x.transition = .command .nop := by simpa [stepMatters] using h
  rw [hnop, bufferAfter]

theorem bufferRun_filter_stepMatters (xs : List PortInput) (b : Option Buffer) :
    bufferRun (xs.filter stepMatters) b = bufferRun xs b := by
  rw [bufferRun, bufferRun, List.foldlM_filter]
  congr 1
  funext b x
  split
  · rfl
  · next h => exact (bufferAfter_of_not_stepMatters h b).symm

/-- Settles O35: both runs are runs of the buffer (`endBuffer_runSteps`), which passes over every step that presents
`NOP`. -/
theorem nopStepsNeverMatter : Obligations.NopStepsNeverMatter := by
  refine ⟨fun s din => exec_nop s, fun xs s => ?_⟩
  rw [endBuffer_runSteps, endBuffer_runSteps, bufferRun_filter_stepMatters]

end Sys2Proof.Machine
end

section
/-! PROOFS. The addresses of a network (spec 42_host_generator.md R75, R76, R84): the masked base is a multiple of the
network's size, so the network ends inside the address space and the addresses above its base do not wrap. -/

namespace Sys2Proof.Machine

/-! Masking a sequence (R76). -/

theorem val_maskedTo {W : Nat} (p : Nat) (a : Bytes W) :
    val (maskedTo p a) = val a - val a % 2 ^ (8 * W - p) := by
  rw [maskedTo, val_bytesOf, Nat.mod_eq_of_lt (Nat.lt_of_le_of_lt (Nat.sub_le _ _) (val_lt a))]

/-- The kept bits are a quotient, and the cleared ones a factor. -/
theorem val_maskedTo_eq_div_mul {W : Nat} (p : Nat) (a : Bytes W) :
    val (maskedTo p a) = val a / 2 ^ (8 * W - p) * 2 ^ (8 * W - p) := by
  rw [val_maskedTo, Nat.div_mul_self_eq_mod_sub_self]

/-- The network's upper end does not pass the top of the address space: both are multiples of the network's size. -/
theorem val_maskedTo_add_le {W p : Nat} (hp : p ≤ 8 * W) (a : Bytes W) :
    val (maskedTo p a) + 2 ^ (8 * W - p) ≤ 2 ^ (8 * W) := by
  have hspace : 2 ^ (8 * W) = 2 ^ p * 2 ^ (8 * W - p) := by rw [← pow_add, Nat.add_sub_of_le hp]
  have hquot : val a / 2 ^ (8 * W - p) < 2 ^ p :=
    Nat.div_lt_of_lt_mul (by rw [Nat.mul_comm, ← hspace]; exact val_lt a)
  rw [val_maskedTo_eq_div_mul, ← Nat.succ_mul, hspace]
  exact Nat.mul_le_mul_right _ hquot

/-- Settles O40: the base is the quotient by the network's size times that size (`val_maskedTo_eq_div_mul`). -/
theorem maskingKeepsThePrefix : Obligations.MaskingKeepsThePrefix := by
  intro W _ p a hp
  refine ⟨val_maskedTo p a, ?_, ?_, Nat.sub_le_sub_right (val_maskedTo_add_le hp a) 1⟩
  · rw [val_maskedTo_eq_div_mul, Nat.mul_div_cancel _ (Nat.two_pow_pos _)]
  · rw [val_maskedTo_eq_div_mul, Nat.mul_mod_left]

/-! The address `k` above an address (R84). -/

theorem bytesOf_val_add_zero {W : Nat} (q : Bytes W) : bytesOf W ((val q + 0) % 2 ^ (8 * W)) = q := by
  rw [Nat.add_zero, Nat.mod_eq_of_lt (val_lt q), bytesOf_val]

theorem bytesOf_val_bytesOf_add (W v j k : Nat) :
    bytesOf W ((val (bytesOf W ((v + j) % 2 ^ (8 * W))) + k) % 2 ^ (8 * W)) =
      bytesOf W ((v + (j + k)) % 2 ^ (8 * W)) := by
  rw [val_bytesOf, Nat.mod_mod, Nat.mod_add_mod, Nat.add_assoc]

@[simp] theorem addressAfter_zero (x : Address) : addressAfter 0 x = x := by
  cases x with
  | ipv4 q => exact congrArg Address.ipv4 (bytesOf_val_add_zero q)
  | ipv6 q => exact congrArg Address.ipv6 (bytesOf_val_add_zero q)

theorem addressAfter_addressAfter (j k : Nat) (x : Address) :
    addressAfter k (addressAfter j x) = addressAfter (j + k) x := by
  cases x with
  | ipv4 q => exact congrArg Address.ipv4 (bytesOf_val_bytesOf_add 4 (val q) j k)
  | ipv6 q => exact congrArg Address.ipv6 (bytesOf_val_bytesOf_add 16 (val q) j k)

/-- Counting up keeps the family. -/
@[simp] theorem bits_addressAfter (k : Nat) (x : Address) : (addressAfter k x).bits = x.bits := by
  cases x <;> rfl

theorem addressValue_addressAfter (k : Nat) (x : Address) :
    addressValue (addressAfter k x) = (addressValue x + k) % 2 ^ x.bits := by
  cases x with
  | ipv4 q => exact (val_bytesOf 4 _).trans (Nat.mod_mod _ _)
  | ipv6 q => exact (val_bytesOf 16 _).trans (Nat.mod_mod _ _)

/-! The addresses of a network (R75, R76). -/

@[simp] theorem bits_networkBase (c : Cidr) : (networkBase c).bits = c.addr.bits := by
  obtain ⟨x, p⟩ := c
  cases x <;> rfl

theorem networkCount_pos (c : Cidr) : 0 < networkCount c := Nat.two_pow_pos _

theorem networkCount_le (c : Cidr) : networkCount c ≤ 2 ^ c.addr.bits :=
  Nat.pow_le_pow_right (by decide) (Nat.sub_le _ _)

/-- R76: the network ends inside the address space. -/
theorem addressValue_networkBase_add_le {c : Cidr} (hc : c.wf = true) :
    addressValue (networkBase c) + networkCount c ≤ 2 ^ c.addr.bits := by
  have hp : c.prefixLen ≤ c.addr.bits := of_decide_eq_true hc
  obtain ⟨x, p⟩ := c
  cases x with
  | ipv4 q => exact val_maskedTo_add_le (W := 4) hp q
  | ipv6 q => exact val_maskedTo_add_le (W := 16) hp q

/-- R84: no wrap occurs in the addresses of a network. -/
theorem addressValue_addressAfter_networkBase {c : Cidr} (hc : c.wf = true) {k : Nat} (hk : k < networkCount c) :
    addressValue (addressAfter k (networkBase c)) = addressValue (networkBase c) + k := by
  have hend := addressValue_networkBase_add_le hc
  rw [addressValue_addressAfter, bits_networkBase]
  exact Nat.mod_eq_of_lt (by omega)

/-- The addresses of a network are as many as it counts: no two are alike. -/
theorem nodup_networkAddresses {c : Cidr} (hc : c.wf = true) :
    ((List.range (networkCount c)).map fun k => some (addressAfter k (networkBase c))).Nodup := by
  refine List.nodup_range.map_on fun j hj k hk heq => ?_
  have hval := congrArg addressValue (Option.some.inj heq)
  rw [addressValue_addressAfter_networkBase hc (List.mem_range.mp hj),
    addressValue_addressAfter_networkBase hc (List.mem_range.mp hk)] at hval
  exact Nat.add_left_cancel hval

end Sys2Proof.Machine
end

section
/-! PROOFS. The Network Generator over the block (spec 42_host_generator.md R72, R77 to R80, R84, R85): what a
construction leaves, what one call of `Next` does, and `n` calls as `n` counts of one. -/

namespace Sys2Proof.Machine

/-! Sequencing, one command presented to the block, and the address in its buffer. -/

/-- A sequence of two outcomes that completes has both complete. -/
theorem andThen_eq_next {σ τ φ ρ : Type} {o : Host.Outcome σ φ ρ} {f : σ → Host.Outcome τ φ ρ} {t : τ}
    (h : andThen o f = .next t) : ∃ s, o = .next s ∧ f s = .next t := by
  cases o with
  | next s => exact ⟨s, rfl, h⟩
  | fault r => cases h
  | refused r => cases h

theorem command_eq_exec (i : Instr) (s : State) : command i s = exec i (s.advance s.inputs) :=
  step_present_of_command s (transition_encode i)

theorem State.buffer?_map_address {s : State} (h : s.loaded = true) (k : Nat) :
    s.buffer?.map Buffer.address = some (s.sample k) := by
  rw [State.buffer?_of_loaded h, Option.map_some, State.sample_of_loaded h]

/-- The block after one presented `INC`, when it is loaded (`command_inc_of_loaded`). -/
def State.afterInc (s : State) : State := (s.advance s.inputs).incremented

@[simp] theorem State.afterInc_loaded (s : State) : s.afterInc.loaded = s.loaded := rfl
@[simp] theorem State.afterInc_fam (s : State) : s.afterInc.fam = s.fam := rfl

theorem command_inc_of_loaded {s : State} (h : s.loaded = true) : command .inc s = .next s.afterInc := by
  have hl : (s.advance s.inputs).loaded = true := h
  rw [command_eq_exec, exec_inc, execInc_loaded hl, State.afterInc]

/-- An increment moves the sample to the next address, modulo the family's modulus (R55, R61). -/
theorem State.sample_incremented {s : State} (h : s.loaded = true) (k : Nat) :
    s.incremented.sample k = addressAfter 1 (s.sample k) := by
  rw [State.sample_of_loaded h]
  cases hf : s.fam with
  | ipv4 =>
    rw [State.sample_incremented_ipv4 h hf, inc_eq_bytesOf]
    rfl
  | ipv6 =>
    rw [State.sample_incremented_ipv6 h hf, inc_eq_bytesOf, Buffer.address, readSeq_sixteen]
    rfl

theorem State.sample_advance {s : State} (h : s.loaded = true) (r : List PortInput) (k : Nat) :
    (s.advance r).sample k = s.sample k :=
  (State.sample_of_loaded (s := s.advance r) h k).trans (State.sample_of_loaded h k).symm

theorem State.sample_afterInc {s : State} (h : s.loaded = true) (k : Nat) :
    s.afterInc.sample k = addressAfter 1 (s.sample k) := by
  rw [State.afterInc, State.sample_incremented (s := s.advance s.inputs) h, State.sample_advance h]

/-! Construction (R77). -/

/-- Loading an address leaves it in the buffer, in either family. -/
theorem exec_loadOf (x : Address) (s : State) : ∃ t, exec (loadOf x) s = .next t ∧ t.loaded = true ∧
    t.buffer?.map Buffer.address = some x ∧ t.UpperCellsZero := by
  cases x with
  | ipv4 q =>
    refine ⟨_, exec_ld4 q s, State.load_loaded .., ?_, s.upperCellsZero_load_ld4 q⟩
    rw [State.buffer?_load, Option.map_some, Buffer.address, readSeq_writeSeq]
  | ipv6 q =>
    refine ⟨_, exec_ld16 q s, State.load_loaded .., ?_, State.upperCellsZero_of_ipv6 rfl⟩
    rw [State.buffer?_load, Option.map_some, Buffer.address, readSeq_sixteen]

theorem construct_eq (c : Cidr) (s : State) :
    construct c s =
      andThen (exec (loadOf (networkBase c)) (s.advance s.inputs)) fun b => .next ⟨b, networkCount c⟩ := by
  rw [construct, command_eq_exec]

/-- Settles O41: the construction is one load (`construct_eq`), which leaves the base in the buffer
(`exec_loadOf`) and the presented steps as they were. -/
theorem constructionLoadsTheBase : Obligations.ConstructionLoadsTheBase := by
  intro c s _
  obtain ⟨t, hexec, hloaded, haddr, hupper⟩ := exec_loadOf (networkBase c) (s.advance s.inputs)
  refine ⟨⟨t, networkCount c⟩, ?_, hloaded, haddr, rfl, networkCount_pos c, networkCount_le c, hupper,
    (exec_next_frame hexec).1⟩
  rw [construct_eq, hexec, andThen_next]

/-- What every constructed generator starts from. -/
theorem construct_next {c : Cidr} {s : State} {g : Generator} (h : construct c s = .next g) :
    g.block.loaded = true ∧ g.block.sample 0 = networkBase c ∧ g.remaining = networkCount c := by
  obtain ⟨t, hexec, hloaded, haddr, -⟩ := exec_loadOf (networkBase c) (s.advance s.inputs)
  rw [construct_eq, hexec, andThen_next] at h
  cases h
  rw [State.buffer?_map_address hloaded 0] at haddr
  exact ⟨hloaded, Option.some.inj haddr, rfl⟩

/-! One call of `Next`. -/

/-- The generator after a call that returned an address (R80). -/
def Generator.counted (g : Generator) : Generator := ⟨g.block.afterInc, g.remaining - 1⟩

@[simp] theorem Generator.counted_block (g : Generator) : g.counted.block = g.block.afterInc := rfl
@[simp] theorem Generator.counted_remaining (g : Generator) : g.counted.remaining = g.remaining - 1 := rfl

/-- R78. -/
theorem Generator.next_of_exhausted {g : Generator} (h : g.remaining = 0) : g.next = .next (none, g) := by
  rw [Generator.next, if_pos h]

/-- R80: the sample is the one before the `INC`. -/
theorem Generator.next_of_active {g : Generator} (h : 0 < g.remaining) (hl : g.block.loaded = true) :
    g.next = .next (some (g.block.sample 0), g.counted) := by
  rw [Generator.next, if_neg (Nat.ne_of_gt h), command_inc_of_loaded hl, andThen_next, Generator.counted]

/-- Settles O44: the one `INC` completes (`command_inc_of_loaded`) and moves the sample to the next address
(`State.sample_afterInc`). -/
theorem nextSamplesThenIncrements : Obligations.NextSamplesThenIncrements := by
  intro g hactive hl
  refine ⟨g.block.afterInc, command_inc_of_loaded hl, Generator.next_of_active hactive hl,
    State.buffer?_map_address hl 0, ?_⟩
  rw [State.buffer?_map_address (s := g.block.afterInc) hl 0, State.sample_afterInc hl]

/-! The generator after `n` counts. -/

theorem Generator.counted_iterate_loaded (g : Generator) (n : Nat) :
    (Generator.counted^[n] g).block.loaded = g.block.loaded := by
  induction n with
  | zero => rfl
  | succ n ih => rw [Function.iterate_succ_apply', Generator.counted_block, State.afterInc_loaded, ih]

theorem Generator.counted_iterate_fam (g : Generator) (n : Nat) :
    (Generator.counted^[n] g).block.fam = g.block.fam := by
  induction n with
  | zero => rfl
  | succ n ih => rw [Function.iterate_succ_apply', Generator.counted_block, State.afterInc_fam, ih]

theorem Generator.counted_iterate_remaining (g : Generator) (n : Nat) :
    (Generator.counted^[n] g).remaining = g.remaining - n := by
  induction n with
  | zero => rfl
  | succ n ih => rw [Function.iterate_succ_apply', Generator.counted_remaining, ih, Nat.sub_sub]

/-- After `n` counts the buffer holds the address `n` above the one it held, modulo the family's modulus. -/
theorem Generator.counted_iterate_sample {g : Generator} (hl : g.block.loaded = true) (n : Nat) :
    (Generator.counted^[n] g).block.sample 0 = addressAfter n (g.block.sample 0) := by
  induction n with
  | zero => rw [Function.iterate_zero_apply, addressAfter_zero]
  | succ n ih =>
    have hl' := (g.counted_iterate_loaded n).trans hl
    rw [Function.iterate_succ_apply', Generator.counted_block, State.sample_afterInc hl', ih,
      addressAfter_addressAfter]

/-! `n` calls of `Next`. -/

theorem Generator.nextCalls_succ {g g' : Generator} {v : Option Address} (h : g.next = .next (v, g')) (n : Nat) :
    g.nextCalls (n + 1) = andThen (g'.nextCalls n) fun rs => .next (v :: rs.1, rs.2) := by
  rw [Generator.nextCalls, h, andThen_next]

/-- Calls that complete: the first call, and the others on the generator it leaves. -/
theorem Generator.nextCalls_succ_next {n : Nat} {g g' : Generator} {vs : List (Option Address)}
    (h : g.nextCalls (n + 1) = .next (vs, g')) :
    ∃ v g₁ vs', g.next = .next (v, g₁) ∧ g₁.nextCalls n = .next (vs', g') ∧ vs = v :: vs' := by
  rw [Generator.nextCalls] at h
  obtain ⟨⟨v, g₁⟩, hnext, h⟩ := andThen_eq_next h
  obtain ⟨⟨vs', g₂⟩, htail, h⟩ := andThen_eq_next h
  cases h
  exact ⟨v, g₁, vs', hnext, htail, rfl⟩

/-- Settles O43, by induction on the number of calls. -/
theorem exhaustedNextChangesNothing : Obligations.ExhaustedNextChangesNothing := by
  intro g hg n
  induction n with
  | zero => rfl
  | succ n ih => rw [Generator.nextCalls_succ (Generator.next_of_exhausted hg), ih, andThen_next, List.replicate_succ]

/-- While addresses remain, the calls return the sample and the addresses above it, in order, one count each. -/
theorem Generator.nextCalls_of_le_remaining {n : Nat} {g : Generator} (hn : n ≤ g.remaining)
    (hl : g.block.loaded = true) :
    g.nextCalls n = .next ((List.range n).map fun k => some (addressAfter k (g.block.sample 0)),
      Generator.counted^[n] g) := by
  induction n generalizing g with
  | zero => rfl
  | succ n ih =>
    have htail := ih (g := g.counted) (Nat.le_sub_one_of_lt hn) hl
    rw [Generator.nextCalls_succ (Generator.next_of_active (Nat.zero_lt_of_lt hn) hl), htail, andThen_next,
      Function.iterate_succ_apply, Generator.counted_block, State.sample_afterInc hl,
      List.range_succ_eq_map, List.map_cons, List.map_map, addressAfter_zero]
    simp only [addressAfter_addressAfter, Function.comp_def, Nat.succ_eq_add_one, Nat.add_comm 1]

/-- Calls that complete, and the calls made after them. -/
theorem Generator.nextCalls_add {n m : Nat} {g g' g'' : Generator} {vs ws : List (Option Address)}
    (h : g.nextCalls n = .next (vs, g')) (h' : g'.nextCalls m = .next (ws, g'')) :
    g.nextCalls (n + m) = .next (vs ++ ws, g'') := by
  induction n generalizing g vs with
  | zero => cases h; rw [Nat.zero_add, List.nil_append, h']
  | succ n ih =>
    obtain ⟨v, g₁, vs', hnext, htail, rfl⟩ := Generator.nextCalls_succ_next h
    rw [Nat.add_right_comm, Generator.nextCalls_succ hnext, ih htail, andThen_next, List.cons_append]

/-! The calls of a constructed generator. -/

/-- The first `n` calls of a constructed generator, up to the number of addresses (R84). -/
theorem construct_nextCalls {c : Cidr} {s : State} {g : Generator} (h : construct c s = .next g) {n : Nat}
    (hn : n ≤ networkCount c) :
    g.nextCalls n = .next ((List.range n).map fun k => some (addressAfter k (networkBase c)),
      Generator.counted^[n] g) := by
  obtain ⟨hl, hbase, hcount⟩ := construct_next h
  rw [Generator.nextCalls_of_le_remaining (hcount ▸ hn) hl, hbase]

/-- Settles O45: the calls by `construct_nextCalls`, and no address of the network wraps. -/
theorem callsReturnConsecutiveAddresses : Obligations.CallsReturnConsecutiveAddresses := by
  intro c s g hc h n hn
  refine ⟨⟨_, construct_nextCalls h hn⟩, fun k hk => ⟨?_, ?_⟩⟩
  · exact addressValue_addressAfter_networkBase hc (Nat.lt_of_lt_of_le hk hn)
  · rw [bits_addressAfter, bits_networkBase]

/-- Settles O46: after `n` calls the generator has counted `n` times, so the current address is `n` above the base,
inside the network while `n` is below the number of addresses. -/
theorem generatorInvariantsBetweenCalls : Obligations.GeneratorInvariantsBetweenCalls := by
  intro c s g hc h n hn
  obtain ⟨hl, hbase, hcount⟩ := construct_next h
  have hl' := (g.counted_iterate_loaded n).trans hl
  have hremaining : (Generator.counted^[n] g).remaining = networkCount c - n := by
    rw [g.counted_iterate_remaining n, hcount]
  refine ⟨_, _, construct_nextCalls h hn, hremaining, fun hactive => ?_, Generator.next_of_exhausted,
    g.counted_iterate_fam n, hl'⟩
  have hlt : n < networkCount c := by omega
  refine ⟨addressAfter n (networkBase c), ?_, ?_⟩
  · rw [State.buffer?_map_address hl' 0, Generator.counted_iterate_sample hl, hbase]
  · rw [addressValue_addressAfter_networkBase hc hlt]
    exact ⟨Nat.le_add_right _ _, Nat.add_lt_add_left hlt _⟩

/-- Settles O47: the first calls return the network's addresses (`construct_nextCalls`, `nodup_networkAddresses`) and
leave nothing to count, and the later ones are O43. -/
theorem exactlyAsManyCallsAsAddresses : Obligations.ExactlyAsManyCallsAsAddresses := by
  intro c s g hc h m
  obtain ⟨-, -, hcount⟩ := construct_next h
  have hzero : (Generator.counted^[networkCount c] g).remaining = 0 := by
    rw [g.counted_iterate_remaining, hcount, Nat.sub_self]
  have hfirst := construct_nextCalls h (Nat.le_refl (networkCount c))
  refine ⟨_, _, Generator.nextCalls_add hfirst (exhaustedNextChangesNothing _ hzero m), ?_, ?_,
    nodup_networkAddresses hc, hzero⟩
  · rw [List.length_map, List.length_range, networkCount]
  · exact List.forall_mem_map.mpr fun _ _ => rfl

end Sys2Proof.Machine
end

section
/-! PROOFS. Exceptions (spec 60_exceptions.md R90, R94): a step with `rst` = 1 is the reset whatever `op` and `din`
hold, and which commands have no next state. -/

namespace Sys2Proof.Machine

/-- R94: the next state of a step with `rst` = 1 has no `op` and no `din` in it. -/
theorem step_present_rst (s : State) (op : BitVec 2) (din : Bus) :
    step (s.present ⟨true, op, din⟩) = .next (s.advance s.inputs).clear :=
  step_present_of_reset s (PortInput.transition_of_rst rfl)

/-- Settles O26: both steps end in the one state of `step_present_rst`, which is a cleared one. -/
theorem resetWinsOverTheCommand : Obligations.ResetWinsOverTheCommand := by
  intro s op op' din din'
  have hloadedO : (s.advance s.inputs).clear.loadedO = 0 := by
    rw [State.loadedO_eq, State.clear_loaded, BitVec.ofBool_false]
  exact ⟨(step_present_rst s op din).trans (step_present_rst s op' din').symm,
    _, step_present_rst s op din, State.clear_loaded _, State.buffer?_clear _, hloadedO, State.clear_inputs _⟩

/-- Settles O30: the model has no fault to answer, the loads and `NOP` complete on every state, and `INC` does so
by `LOADED`. -/
theorem noStepFaults : Obligations.NoStepFaults := by
  refine ⟨fun _ r => (nomatch r), fun i s => ?_⟩
  cases i with
  | nop => exact .inl ⟨_, exec_nop s⟩
  | ld4 q => exact .inl ⟨_, exec_ld4 q s⟩
  | ld16 q => exact .inl ⟨_, exec_ld16 q s⟩
  | inc =>
    cases hl : s.loaded with
    | true => exact .inl ⟨_, execInc_loaded hl⟩
    | false => exact .inr ⟨rfl, rfl, execInc_unloaded hl⟩

end Sys2Proof.Machine
end

section
/-! PROOFS. Reset and the hazard of `INC` before a load (spec 70_reset_and_hazards.md R105, R110): where a run of
resets ends, and that a refused step leaves the run it begins without an end state. -/

namespace Sys2Proof.Machine

/-- R105: a run of resets ends as one reset does, at a later moment: of the state it starts from only the presented
steps and the moment are in its end state. -/
theorem runSteps_replicate_rst {x : PortInput} (hx : x.rst = true) (n : Nat) (s : State) :
    runSteps (List.replicate (n + 1) x) s = .next { s with draws := s.draws + (n + 1) }.clear := by
  have hstep (u : State) : step (u.present x) = .next (u.advance u.inputs).clear :=
    step_present_of_reset u (PortInput.transition_of_rst hx)
  induction n generalizing s with
  | zero => rw [List.replicate_one, runSteps_cons, hstep, andThen_next, runSteps_nil, State.advance]
  | succ n ih =>
    rw [List.replicate_succ, runSteps_cons, hstep, andThen_next, ih]
    refine congrArg _ (State.clear_congr rfl ?_)
    rw [State.clear_draws, State.advance_draws, Nat.add_assoc, Nat.add_comm 1]

/-- Settles O27: a reset step ends in a cleared state, which has no register of the one before in it
(`State.clear_congr`), and so does any positive number of them (`runSteps_replicate_rst`). -/
theorem resetForgetsTheRegisters : Obligations.ResetForgetsTheRegisters := by
  refine ⟨fun s s' x hx hinputs hdraws => ?_, fun s x n hx => ?_, rfl, State.buffer?_of_unloaded rfl⟩
  · have ht := PortInput.transition_of_rst hx
    have hclear : (s.advance s.inputs).clear = (s'.advance s'.inputs).clear :=
      State.clear_congr hinputs (congrArg (· + 1) hdraws)
    rw [step_present_of_reset s ht, step_present_of_reset s' ht, hclear]
  · exact ⟨_, runSteps_replicate_rst hx n s, State.clear_loaded _, State.buffer?_clear _, State.clear_inputs _⟩

/-- R110: nothing presented after a refused step gives the run an end state. -/
theorem not_safeRun_cons_of_refused {x : PortInput} {s : State} {r : Refusal}
    (h : step (s.present x) = .refused r) (xs : List PortInput) : ¬ SafeRun (x :: xs) s := by
  rintro ⟨t, ht⟩
  rw [runSteps_cons, h, andThen_refused] at ht
  cases ht

/-- Settles O21: the presented command is `INC`, which an unloaded buffer refuses (`execInc_unloaded`), and the run
stops there (`not_safeRun_cons_of_refused`). -/
theorem incBeforeLoadHasNoNextState : Obligations.IncBeforeLoadHasNoNextState := by
  intro s x hl hrst hop
  have hinc : x.transition = .command .inc := by
    rw [PortInput.transition_of_not_rst hrst, hop]
    exact congrArg Transition.command (decode_three x.din)
  have hrefused : step (s.present x) = .refused .incBeforeLoad := by
    rw [step_present_of_command s hinc, exec_inc, execInc_unloaded (s := s.advance s.inputs) hl]
  exact ⟨hrefused, not_safeRun_cons_of_refused hrefused⟩

end Sys2Proof.Machine
end

section
/-! PROOFS. The encoding round trip (spec 30_encoding.md R42 to R46): a command comes back from its encoding, and
encoding what was decoded keeps the byte lanes that the command uses. -/

namespace Sys2Proof

/-! From a command to its encoding and back. -/

theorem decode_encode (i : Instr) : decode (encode i).op (encode i).din = i := by
  have h := transition_encode i
  rw [PortInput.transition_of_not_rst rfl] at h
  exact Transition.command.inj h

/-- The word `{op, din}` has `op` in bits [129:128] and `din` below them (R42). -/
theorem decodeWord_append (op : BitVec 2) (din : Bus) : decodeWord (op ++ din) = decode op din := by
  rw [decodeWord, BitVec.extractLsb'_append_eq_left, BitVec.extractLsb'_append_eq_right]

theorem decodeWord_encodeWord (i : Instr) : decodeWord (encodeWord i) = i :=
  (decodeWord_append i.opcode i.data).trans (decode_encode i)

/-- Settles O4: `transition_encode` for the step, and `decodeWord_append` for the word. -/
theorem decodeOfEncodeIsTheCommand : Obligations.DecodeOfEncodeIsTheCommand :=
  fun i _ => ⟨transition_encode i, decode_encode i, decodeWord_encodeWord i⟩

/-! From a bus to the command and back: a bus is its sixteen lanes. -/

theorem pack_lanes (v : Bus) : pack (lanes 16 v) = v := by
  apply BitVec.eq_of_toNat_eq
  rw [Machine.pack_toNat, Machine.val_lanes_sixteen]

theorem bus_ext {v w : Bus} (h : ∀ i, i < 16 → lane v i = lane w i) : v = w := by
  have hlanes : lanes 16 v = lanes 16 w := by
    ext i hi : 1
    rw [lanes_get, lanes_get, h i hi]
  rw [← pack_lanes v, hlanes, pack_lanes]

theorem lane_and (v w : Bus) (i : Nat) : lane (v &&& w) i = lane v i &&& lane w i :=
  BitVec.extractLsb'_and

/-- The mask of the bits that `LD4` takes (R43): ones on lanes 0 to 3, zeros on the others. -/
theorem lane_ld4Mask : ∀ i, i < 16 →
    lane 0xFFFFFFFF000000000000000000000000 i = if i < 4 then 0xFF#8 else 0x00#8 := by
  decide

/-- The encoder puts the four bytes back on their lanes and drives zeros on the others (R43, log 14). -/
theorem pack_padLanes_lanes (v : Bus) :
    pack (padLanes (lanes 4 v)) = v &&& 0xFFFFFFFF000000000000000000000000 := by
  refine bus_ext fun i hi => ?_
  rw [lane_pack _ i hi, padLanes_get _ i hi, lane_and, lane_ld4Mask i hi]
  split
  · exact (lanes_get v i _).trans BitVec.and_allOnes.symm
  · exact BitVec.and_zero.symm

theorem data_decode (op : BitVec 2) (din : Bus) : (decode op din).data =
    if op = 0b01 then din &&& 0xFFFFFFFF000000000000000000000000 else if op = 0b10 then din else 0 := by
  fun_cases decode op din with
  | case1 => rfl
  | case2 => exact pack_padLanes_lanes din
  | case3 => exact pack_lanes din
  | case4 => rfl

/-- Settles O5: `opcode_decode` for `op`, and the bus that each row of the table keeps (`data_decode`). -/
theorem encodeOfDecodeKeepsUsedBits : Obligations.EncodeOfDecodeKeepsUsedBits :=
  fun op din => ⟨rfl, opcode_decode op din, data_decode op din⟩

/-- Settles O6: the rows of the table, with the lanes of each written word computed. -/
theorem writtenWordsDecode : Obligations.WrittenWordsDecode := by
  refine ⟨(decode_one _).trans (congrArg Instr.ld4 ?_), (decode_two _).trans (congrArg Instr.ld16 ?_),
    decode_zero _, decode_three _⟩
  · decide
  · decide

end Sys2Proof
end

section
/-! PROOFS. The assembler and written addresses (spec 30_encoding.md R48, R49): a well-formed line is one step, and the
bytes of a written address hold the digits of the number it writes. -/

namespace Sys2Proof

/-! Lines (R48). -/

theorem assemble_of_wf {l : Line} (h : l.wf = true) : assemble l = some l.input := by
  rw [assemble, if_pos h]

theorem assemble_of_not_wf {l : Line} (h : l.wf = false) : assemble l = none := by
  rw [assemble, if_neg (Bool.eq_false_iff.mp h)]

/-- A line whose step is an encoded command presents that command (R48). -/
theorem assemble_transition_of_encode {l : Line} {i : Instr} (h : l.wf = true) (hi : l.input = encode i) :
    (assemble l).map PortInput.transition = some (.command i) := by
  rw [assemble_of_wf h, hi, Option.map_some, transition_encode]

theorem assembleAll_of_wf {ls : List Line} (h : ∀ l ∈ ls, l.wf = true) :
    assembleAll ls = some (ls.map Line.input) := by
  induction ls with
  | nil => rfl
  | cons l ls ih =>
    obtain ⟨hl, hls⟩ := List.forall_mem_cons.mp h
    rw [assembleAll, assemble_of_wf hl, ih hls, List.map_cons]

theorem assembleAll_of_not_wf {l : Line} {ls : List Line} (hmem : l ∈ ls) (h : l.wf = false) :
    assembleAll ls = none := by
  induction hmem with
  | head ls => rw [assembleAll, assemble_of_not_wf h]
  | tail l' _ ih =>
    rw [assembleAll, ih]
    cases assemble l' <;> rfl

/-- Settles O7: each well-formed line assembles to its step (`assemble_of_wf`), and sequences by induction on the
lines. -/
theorem assembledLineIsItsTransition : Obligations.AssembledLineIsItsTransition :=
  ⟨fun _ h => assemble_transition_of_encode (l := .ld4 _) h rfl,
    fun _ h => assemble_transition_of_encode (l := .ld16 _) h rfl,
    assemble_transition_of_encode (l := .nop) rfl rfl, assemble_transition_of_encode (l := .inc) rfl rfl, rfl,
    fun _ => assemble_of_not_wf, fun _ => assembleAll_of_wf, fun _ _ => assembleAll_of_not_wf⟩

/-! Which written addresses are well formed (R48, R49). -/

theorem Ipv4Text.wf_dotted_iff {a b c d : Nat} :
    (Ipv4Text.dotted a b c d).wf = true ↔ a ≤ 255 ∧ b ≤ 255 ∧ c ≤ 255 ∧ d ≤ 255 := by
  simp [Ipv4Text.wf, and_assoc]

theorem Ipv4Text.wf_hex_iff {ds : List Nat} :
    (Ipv4Text.hex ds).wf = true ↔ ds.length = 8 ∧ ∀ d ∈ ds, d < 16 := by
  simp [Ipv4Text.wf]

theorem Ipv6Text.wf_groups_iff {gs : List Nat} :
    (Ipv6Text.groups gs).wf = true ↔ gs.length = 8 ∧ ∀ g ∈ gs, g < 65536 := by
  simp [Ipv6Text.wf]

theorem Ipv6Text.wf_compressed_iff {front back : List Nat} :
    (Ipv6Text.compressed front back).wf = true ↔
      front.length + back.length < 8 ∧ ∀ g ∈ front ++ back, g < 65536 := by
  simp only [Ipv6Text.wf, Bool.and_eq_true, decide_eq_true_eq, List.all_eq_true]

theorem Ipv6Text.wf_hex_iff {ds : List Nat} :
    (Ipv6Text.hex ds).wf = true ↔ ds.length = 32 ∧ ∀ d ∈ ds, d < 16 := by
  simp [Ipv6Text.wf]

/-! Numbers written in base `B`, most significant digit first. -/

/-- The number that digits in base `B` write (R49). -/
def digitsValue (B : Nat) (ds : List Nat) : Nat := ds.foldl (fun n d => n * B + d) 0

theorem digitsValue_take_succ {B k : Nat} {ds : List Nat} (h : k < ds.length) :
    digitsValue B (ds.take (k + 1)) = digitsValue B (ds.take k) * B + ds.getD k 0 := by
  rw [digitsValue, List.take_succ_eq_append_getElem h, List.foldl_append, List.getD_eq_getElem ds 0 h]
  rfl

theorem getD_lt_of_forall_lt {B : Nat} {ds : List Nat} (hB : 0 < B) (h : ∀ d ∈ ds, d < B) (i : Nat) :
    ds.getD i 0 < B := by
  by_cases hi : i < ds.length
  · rw [List.getD_eq_getElem ds 0 hi]
    exact h _ (List.getElem_mem hi)
  · rwa [List.getD_eq_default ds 0 (Nat.le_of_not_lt hi)]

/-! The bytes of written digits and groups (R49). -/

theorem hexByte_toNat {ds : List Nat} (h : ∀ d ∈ ds, d < 16) (i : Nat) :
    (hexByte ds i).toNat = ds.getD (2 * i) 0 * 16 + ds.getD (2 * i + 1) 0 := by
  have hhigh := getD_lt_of_forall_lt (by decide) h (2 * i)
  have hlow := getD_lt_of_forall_lt (by decide) h (2 * i + 1)
  rw [hexByte, BitVec.toNat_ofNat]
  omega

/-- The two bytes of a group (R49). -/
theorem groupByte_pair_toNat {gs : List Nat} (h : ∀ g ∈ gs, g < 65536) (i : Nat) :
    (groupByte gs (2 * i)).toNat * 256 + (groupByte gs (2 * i + 1)).toNat = gs.getD i 0 := by
  have hgroup := getD_lt_of_forall_lt (by decide) h i
  have heven : 2 * i % 2 = 0 := by omega
  have hodd : ¬ (2 * i + 1) % 2 = 0 := by omega
  have hhigh : 2 * i / 2 = i := by omega
  have hlow : (2 * i + 1) / 2 = i := by omega
  rw [groupByte, if_pos heven, groupByte, if_neg hodd, hhigh, hlow, BitVec.toNat_ofNat, BitVec.toNat_ofNat]
  omega

theorem mem_expandGroups_lt {front back : List Nat} (h : ∀ g ∈ front ++ back, g < 65536) :
    ∀ g ∈ expandGroups front back, g < 65536 := by
  intro g hg
  simp only [expandGroups, List.mem_append, List.mem_replicate] at hg h
  obtain (hf | ⟨-, rfl⟩) | hb := hg
  · exact h g (.inl hf)
  · decide
  · exact h g (.inr hb)

theorem length_expandGroups {front back : List Nat} (h : front.length + back.length < 8) :
    (expandGroups front back).length = 8 := by
  simp only [expandGroups, List.length_append, List.length_replicate]
  omega

end Sys2Proof

namespace Sys2Proof.Machine

theorem ofFn_get {W : Nat} (f : Nat → Byte) (k : Nat) (h : k < W) : (Vector.ofFn fun i : Fin W => f i)[k] = f k :=
  Vector.getElem_ofFn h

theorem valFirst_hex {W : Nat} {ds : List Nat} (hlen : ds.length = 2 * W) (hd : ∀ d ∈ ds, d < 16) :
    ∀ (k : Nat) (h : k ≤ W),
      valFirst (Vector.ofFn fun i : Fin W => hexByte ds i) k h = digitsValue 16 (ds.take (2 * k)) := by
  intro k
  induction k with
  | zero => intro h; rfl
  | succ k ih =>
    intro h
    have htwo : 2 * (k + 1) = 2 * k + 1 + 1 := rfl
    rw [valFirst_succ, ih, ofFn_get (hexByte ds), hexByte_toNat hd, htwo,
      digitsValue_take_succ (by omega), digitsValue_take_succ (by omega)]
    omega

/-- R49: hex digits, two a byte, are the value. -/
theorem val_hex {W : Nat} {ds : List Nat} (hlen : ds.length = 2 * W) (hd : ∀ d ∈ ds, d < 16) :
    val (Vector.ofFn fun i : Fin W => hexByte ds i) = digitsValue 16 ds := by
  rw [val, valFirst_hex hlen hd, ← hlen, List.take_length]

theorem valFirst_groups {W : Nat} {gs : List Nat} (hlen : W = 2 * gs.length) (hg : ∀ g ∈ gs, g < 65536) :
    ∀ (k n : Nat) (_ : n = 2 * k) (h : n ≤ W),
      valFirst (Vector.ofFn fun i : Fin W => groupByte gs i) n h = digitsValue 65536 (gs.take k) := by
  intro k
  induction k with
  | zero => rintro _ rfl h; rfl
  | succ k ih =>
    intro n hn h
    obtain rfl : n = 2 * k + 1 + 1 := hn
    rw [valFirst_succ, valFirst_succ, ih _ rfl, ofFn_get (groupByte gs), ofFn_get (groupByte gs),
      digitsValue_take_succ (by omega), ← groupByte_pair_toNat hg k]
    ring

/-- R49: groups, two bytes each, are the number they write in base 65536. -/
theorem val_groups {W : Nat} {gs : List Nat} (hlen : W = 2 * gs.length) (hg : ∀ g ∈ gs, g < 65536) :
    val (Vector.ofFn fun i : Fin W => groupByte gs i) = digitsValue 65536 gs := by
  rw [val, valFirst_groups hlen hg gs.length W hlen, List.take_length]

theorem val_four (q : Bytes 4) :
    val q = ((q[0].toNat * 256 + q[1].toNat) * 256 + q[2].toNat) * 256 + q[3].toNat := by
  simp [val, valFirst_succ]

/-- R49: the numbers of a dotted quad are its bytes. -/
theorem val_dotted {a b c d : Nat} (h : (Ipv4Text.dotted a b c d).wf = true) :
    val (Ipv4Text.dotted a b c d).bytes = ((a * 256 + b) * 256 + c) * 256 + d := by
  have byte {n : Nat} (hn : n ≤ 255) : (BitVec.ofNat 8 n).toNat = n :=
    Nat.mod_eq_of_lt (Nat.lt_succ_of_le hn)
  obtain ⟨ha, hb, hc, hd⟩ := Ipv4Text.wf_dotted_iff.mp h
  rw [val_four]
  simp [Ipv4Text.bytes, byte ha, byte hb, byte hc, byte hd]

/-- Settles O8: in each written form the digits give the base-256 digits of the bytes (`val_dotted`, `val_hex`,
`val_groups`), and `::` is expanded to eight groups first. -/
theorem writtenAddressHasItsValue : Obligations.WrittenAddressHasItsValue := by
  refine ⟨fun _ _ _ _ => val_dotted, fun ds h => ?_, fun gs h => ?_, fun front back h => ?_, fun ds h => ?_⟩
  · obtain ⟨hlen, hdigits⟩ := Ipv4Text.wf_hex_iff.mp h
    exact val_hex hlen hdigits
  · obtain ⟨hlen, hgroups⟩ := Ipv6Text.wf_groups_iff.mp h
    exact val_groups (by rw [hlen]) hgroups
  · obtain ⟨hlen, hgroups⟩ := Ipv6Text.wf_compressed_iff.mp h
    exact val_groups (by rw [length_expandGroups hlen]) (mem_expandGroups_lt hgroups)
  · obtain ⟨hlen, hdigits⟩ := Ipv6Text.wf_hex_iff.mp h
    exact val_hex hlen hdigits

end Sys2Proof.Machine
end

section
/-! PROOFS. Repeated increments (spec 40_increment.md section 3): `n` of them add `n` modulo the width's modulus, so
the increment runs through all the sequences of a width in one cycle. -/

namespace Sys2Proof.Machine

theorem inc_iterate_eq_bytesOf {W : Nat} (a : Bytes W) (n : Nat) :
    inc^[n] a = bytesOf W ((val a + n) % 2 ^ (8 * W)) := by
  induction n with
  | zero => exact (bytesOf_val_add_zero a).symm
  | succ n ih => rw [Function.iterate_succ_apply', ih, inc_eq_bytesOf, bytesOf_val_bytesOf_add]

/-- Settles O14, by induction on the number of increments (`inc_iterate_eq_bytesOf`). -/
theorem repeatedIncrementAddsTheCount : Obligations.RepeatedIncrementAddsTheCount :=
  fun _ _ => inc_iterate_eq_bytesOf

/-- The increments that return the starting sequence are the multiples of the width's modulus. -/
theorem inc_iterate_eq_self_iff {W : Nat} (a : Bytes W) (n : Nat) : inc^[n] a = a ↔ 2 ^ (8 * W) ∣ n := by
  have hval : (val a + n) % 2 ^ (8 * W) = val a ↔ 2 ^ (8 * W) ∣ n := by
    rw [← Nat.add_modEq_left_iff (a := val a), Nat.ModEq, Nat.mod_eq_of_lt (val_lt a)]
  rw [← hval, inc_iterate_eq_bytesOf]
  refine ⟨fun h => ?_, fun h => by rw [h, bytesOf_val]⟩
  have hv := congrArg val h
  rwa [val_bytesOf, Nat.mod_mod] at hv

theorem inc_iterate_modulus {W : Nat} (a : Bytes W) : inc^[2 ^ (8 * W)] a = a :=
  (inc_iterate_eq_self_iff a _).mpr (Nat.dvd_refl _)

/-- One step short of the cycle undoes one increment, on either side. -/
theorem inc_bijective (W : Nat) : Function.Bijective (inc : Bytes W → Bytes W) := by
  have hcycle : 2 ^ (8 * W) = 2 ^ (8 * W) - 1 + 1 := (Nat.sub_add_cancel (Nat.two_pow_pos _)).symm
  refine Function.bijective_iff_has_inverse.mpr ⟨inc^[2 ^ (8 * W) - 1], fun a => ?_, fun a => ?_⟩
  · rw [← Function.iterate_succ_apply inc, Nat.succ_eq_add_one, ← hcycle, inc_iterate_modulus]
  · rw [← Function.iterate_succ_apply' inc, Nat.succ_eq_add_one, ← hcycle, inc_iterate_modulus]

/-- Settles O15: a count between 0 and the modulus is no multiple of it (`inc_iterate_eq_self_iff`). -/
theorem incrementIsAFullCycle : Obligations.IncrementIsAFullCycle := by
  refine fun W _ => ⟨inc_bijective W, fun a => ⟨inc_iterate_modulus a, fun n hpos hlt h => ?_⟩⟩
  exact Nat.not_dvd_of_pos_of_lt hpos hlt ((inc_iterate_eq_self_iff a n).mp h)

end Sys2Proof.Machine
end

section
/-! PROOFS. The commands and the step that presents one (spec 10_state.md section 2; 20_memory.md section 4;
41_load_idle.md): the frame of every command, and that a presented command runs itself. -/

namespace Sys2Proof.Machine

/-- Settles O16: the arm of `NOP`. -/
theorem nopAnswersTheSameState : Obligations.NopAnswersTheSameState := exec_nop

/-- Settles O23: each of the four ways a command can complete (`exec_next_cases`) meets its own clause. -/
theorem frameOfEveryCommand : Obligations.FrameOfEveryCommand := by
  intro i s t h
  obtain ⟨hinputs, hdraws⟩ := exec_next_frame h
  refine ⟨hinputs, hdraws, ?_, ?_, ?_, ?_⟩
  · rintro rfl
    cases h
    exact ⟨rfl, rfl, rfl⟩
  · rintro q rfl j
    cases h
    exact (writeSeq_get q zeroCells j j.isLt).trans (by rw [zeroCells_get])
  · rintro q rfl
    cases h
    rfl
  · rintro rfl
    obtain ⟨-, rfl⟩ := exec_inc_next h
    exact ⟨s.incremented_fam, s.incremented_loaded, fun j => s.incremented_get_of_ge j j.isLt⟩

/-- Settles O24: `step_command` is the statement. -/
theorem stepRunsTheDecodedCommand : Obligations.StepRunsTheDecodedCommand :=
  fun _ _ _ => step_command

/-- A word of the opcode table presents the command that the decoder reads from it (log 7). -/
theorem step_withFetchWord (s : State) (nbits w : Nat) :
    step (s.withFetchWord nbits w) = exec (decode (BitVec.ofNat 2 w) 0) (s.advance s.inputs) :=
  step_present_of_command s (PortInput.transition_of_not_rst rfl)

/-- Settles O25: `command_eq_exec` for an encoded command, `step_withFetchWord` for a word of the table. -/
theorem presentedCommandRunsItself : Obligations.PresentedCommandRunsItself :=
  ⟨command_eq_exec, fun s nbits w => ⟨decode (BitVec.ofNat 2 w) 0, rfl, opcode_decode _ _,
    step_withFetchWord s nbits w⟩⟩

end Sys2Proof.Machine
end

section
/-! PROOFS. The outputs (spec 10_state.md sections 5 and 6; 70_reset_and_hazards.md section 3): they are a function of
the buffer, absent or present, and of the moment. -/

namespace Sys2Proof.Machine

theorem State.dout_of_loaded {s : State} (h : s.loaded = true) (k : Nat) : s.dout k = pack s.a := by
  rw [State.dout, if_pos h]

theorem State.famO_of_loaded {s : State} (h : s.loaded = true) (k : Nat) : s.famO k = s.fam.bit := by
  rw [State.famO, if_pos h]

theorem State.dout_of_unloaded {s : State} (h : s.loaded = false) (k : Nat) :
    s.dout k = Config.doutBeforeLoad s.draws k := by
  rw [State.dout, if_neg (Bool.eq_false_iff.mp h)]

theorem State.famO_of_unloaded {s : State} (h : s.loaded = false) (k : Nat) :
    s.famO k = Config.famOBeforeLoad s.draws k := by
  rw [State.famO, if_neg (Bool.eq_false_iff.mp h)]

theorem State.loadedO_of_unloaded {s : State} (h : s.loaded = false) : s.loadedO = 0 := by
  rw [State.loadedO_eq, h, BitVec.ofBool_false]

theorem State.loadedO_of_loaded {s : State} (h : s.loaded = true) : s.loadedO = 1 := by
  rw [State.loadedO_eq, h, BitVec.ofBool_true]

/-- Zero bytes from index `j` on are zero digits at the end of the value. -/
theorem valFirst_of_zeros {W : Nat} (a : Bytes W) (j : Nat) : ∀ (d : Nat) (h : j + d ≤ W),
    (∀ (i : Nat) (hi : i < W), j ≤ i → a[i] = 0x00) →
      valFirst a (j + d) h = valFirst a j (Nat.le_of_add_right_le h) * 256 ^ d := by
  intro d
  induction d with
  | zero => intro h _; rw [pow_zero, Nat.mul_one]; rfl
  | succ d ih =>
    intro h hzero
    have hsucc : valFirst a (j + (d + 1)) h =
        valFirst a (j + d) (Nat.le_of_succ_le h) * 256 + a[j + d].toNat := valFirst_succ a h
    rw [hsucc, ih _ hzero, hzero (j + d) h (Nat.le_add_right j d), pow_succ, Nat.mul_assoc]
    rfl

/-- With zero cells from 4 on, bits [95:0] of the bus are zero (R17, R21). -/
theorem pack_mod_of_upper_zero {a : Bytes 16} (h : ∀ j : Fin 16, 4 ≤ j.1 → a[j] = 0x00) :
    (pack a).toNat % 2 ^ 96 = 0 := by
  have hval : val a = valFirst a 4 (by decide) * 256 ^ 12 :=
    valFirst_of_zeros a 4 12 (Nat.le_refl 16) fun i hi => h ⟨i, hi⟩
  rw [pack_toNat, hval, ← two_pow_bits_eq, Nat.mul_mod_left]

/-- Settles O29: unloaded, the free values; loaded, `lane_pack` for the cells, `State.buffer?_map_address` for the
sample and `pack_mod_of_upper_zero` for 4-byte mode. -/
theorem outputsShowTheLoadedBuffer : Obligations.OutputsShowTheLoadedBuffer := by
  refine fun s k => ⟨fun hl => ?_, fun hl => ?_⟩
  · exact ⟨State.loadedO_of_unloaded hl, State.dout_of_unloaded hl k, State.famO_of_unloaded hl k⟩
  · rw [State.dout_of_loaded hl]
    exact ⟨State.loadedO_of_loaded hl, State.famO_of_loaded hl k, fun i => lane_pack s.a i i.isLt,
      State.buffer?_map_address hl k, fun hupper hf => pack_mod_of_upper_zero (hupper hl hf)⟩

/-- Settles O28: the reset state is one that is not loaded. -/
theorem stateRightAfterReset : Obligations.StateRightAfterReset :=
  ⟨rfl, State.loadedO_of_unloaded rfl, State.buffer?_of_unloaded rfl,
    fun k => ⟨State.dout_of_unloaded rfl k, State.famO_of_unloaded rfl k⟩, rfl⟩

/-- Settles O32: the invariant says nothing of a state that is not loaded. -/
theorem upperCellsZeroAtReset : Obligations.UpperCellsZeroAtReset := State.upperCellsZero_of_unloaded rfl

/-! The outputs of two states with the same buffer. -/

theorem State.loadedO_congr {s t : State} (hb : s.buffer? = t.buffer?) : s.loadedO = t.loadedO := by
  rw [State.loadedO_eq, State.loadedO_eq, ← State.buffer?_isSome, hb, State.buffer?_isSome]

theorem State.dout_eq_buffer (s : State) (k : Nat) :
    s.dout k = (s.buffer?.map fun b => pack b.cells).getD (Config.doutBeforeLoad s.draws k) := by
  cases hl : s.loaded with
  | true => rw [State.dout_of_loaded hl, State.buffer?_of_loaded hl]; rfl
  | false => rw [State.dout_of_unloaded hl, State.buffer?_of_unloaded hl]; rfl

theorem State.famO_eq_buffer (s : State) (k : Nat) :
    s.famO k = (s.buffer?.map fun b => b.fam.bit).getD (Config.famOBeforeLoad s.draws k) := by
  cases hl : s.loaded with
  | true => rw [State.famO_of_loaded hl, State.buffer?_of_loaded hl]; rfl
  | false => rw [State.famO_of_unloaded hl, State.buffer?_of_unloaded hl]; rfl

theorem State.dout_congr {s t : State} (hb : s.buffer? = t.buffer?) (hd : s.draws = t.draws) (k : Nat) :
    s.dout k = t.dout k := by
  rw [State.dout_eq_buffer, hb, hd, ← State.dout_eq_buffer]

theorem State.famO_congr {s t : State} (hb : s.buffer? = t.buffer?) (hd : s.draws = t.draws) (k : Nat) :
    s.famO k = t.famO k := by
  rw [State.famO_eq_buffer, hb, hd, ← State.famO_eq_buffer]

theorem State.sample_congr {s t : State} (hb : s.buffer? = t.buffer?) (hd : s.draws = t.draws) (k : Nat) :
    s.sample k = t.sample k := by
  rw [State.sample, State.sample, State.famO_congr hb hd, State.dout_congr hb hd]

end Sys2Proof.Machine
end

section
/-! PROOFS. Runs (spec 20_memory.md section 4; 70_reset_and_hazards.md R107, R110, section 1): the list of presented
steps is taken in order, what an absent buffer holds is never seen, and which runs have an end state. -/

namespace Sys2Proof.Machine

/-! The list of presented steps (log 1). -/

/-- The steps of `xs` presented before those already in the list. -/
def State.prepend (xs : List PortInput) (s : State) : State := { s with inputs := xs ++ s.inputs }

/-- A command runs the same whatever is presented after it. -/
theorem exec_prepend (xs : List PortInput) (i : Instr) (s : State) :
    exec i (s.prepend xs) = andThen (exec i s) fun t => .next (t.prepend xs) := by
  cases i with
  | nop => rfl
  | ld4 q => rfl
  | ld16 q => rfl
  | inc =>
    cases hl : s.loaded with
    | true =>
      rw [exec_inc, exec_inc, execInc_loaded hl, execInc_loaded (s := s.prepend xs) hl]
      rfl
    | false =>
      rw [exec_inc, exec_inc, execInc_unloaded hl, execInc_unloaded (s := s.prepend xs) hl]
      rfl

/-- A machine step takes the head of the list and leaves the rest of it. -/
theorem step_prepend_cons (x : PortInput) (xs : List PortInput) (s : State) :
    step (s.prepend (x :: xs)) = andThen (step (s.present x)) fun t => .next (t.prepend xs) := by
  cases hx : x.transition with
  | reset =>
    rw [step_present_of_reset s hx]
    exact step_present_of_reset (s.prepend xs) hx
  | command i =>
    rw [step_present_of_command s hx, ← exec_prepend]
    exact step_present_of_command (s.prepend xs) hx

theorem andThen_assoc {σ τ υ φ ρ : Type} (o : Host.Outcome σ φ ρ) (f : σ → Host.Outcome τ φ ρ)
    (g : τ → Host.Outcome υ φ ρ) : andThen (andThen o f) g = andThen o fun s => andThen (f s) g := by
  cases o <;> rfl

theorem core_run_prepend (xs : List PortInput) (s : State) :
    Host.Core.run core xs.length (s.prepend xs) = runSteps xs s := by
  induction xs generalizing s with
  | nil => rfl
  | cons x xs ih =>
    refine (core_run_succ xs.length (s.prepend (x :: xs))).trans ?_
    rw [step_prepend_cons, runSteps_cons]
    exact (andThen_assoc ..).trans (congrArg _ (funext ih))

/-- Settles O34, by induction on the steps (`step_prepend_cons`). -/
theorem runTakesStepsInOrder : Obligations.RunTakesStepsInOrder := core_run_prepend

/-! What an absent buffer holds. -/

theorem step_present_next_draws {x : PortInput} {s t : State} (h : step (s.present x) = .next t) :
    t.draws = s.draws + 1 := by
  cases hx : x.transition with
  | reset =>
    rw [step_present_of_reset s hx] at h
    cases h
    rfl
  | command i =>
    rw [step_present_of_command s hx] at h
    exact (exec_next_frame h).2

/-- A run that completes takes one moment a step (log 4). -/
theorem runSteps_next_draws {xs : List PortInput} {s t : State} (h : runSteps xs s = .next t) :
    t.draws = s.draws + xs.length := by
  induction xs generalizing s with
  | nil => cases h; rfl
  | cons x xs ih =>
    rw [runSteps_cons] at h
    obtain ⟨u, hstep, hrun⟩ := andThen_eq_next h
    rw [ih hrun, step_present_next_draws hstep, List.length_cons, Nat.add_assoc, Nat.add_comm 1]

theorem endBuffer_runSteps_congr {s t : State} (hb : s.buffer? = t.buffer?) (xs : List PortInput) :
    endBuffer (runSteps xs s) = endBuffer (runSteps xs t) := by
  rw [endBuffer_runSteps, endBuffer_runSteps, hb]

/-- Settles O36: the outputs depend on the buffer and the moment alone, and so does a run's end: its buffer by
`endBuffer_runSteps`, its moment by `runSteps_next_draws`. -/
theorem contentsWithoutValueAreNeverSeen : Obligations.ContentsWithoutValueAreNeverSeen := by
  refine ⟨fun s hl cells f k => ?_, fun xs s t hb => ⟨endBuffer_runSteps_congr hb xs, fun hd s' t' hs ht => ?_⟩⟩
  · have hb : ({ s with a := cells, fam := f } : State).buffer? = s.buffer? :=
      (State.buffer?_of_unloaded (s := { s with a := cells, fam := f }) hl).trans
        (State.buffer?_of_unloaded hl).symm
    exact ⟨State.dout_congr hb rfl k, State.famO_congr hb rfl k, State.loadedO_congr hb,
      State.sample_congr hb rfl k⟩
  · have hb' : s'.buffer? = t'.buffer? := by
      have hend := endBuffer_runSteps_congr hb xs
      rw [hs, ht] at hend
      exact Option.some.inj hend
    have hd' : s'.draws = t'.draws := by rw [runSteps_next_draws hs, runSteps_next_draws ht, hd]
    exact ⟨State.loadedO_congr hb', fun k =>
      ⟨State.dout_congr hb' hd' k, State.famO_congr hb' hd' k, State.sample_congr hb' hd' k⟩⟩

/-! The discipline of load before increment (R107). -/

/-- A transition that has a next state: every one but `INC` on an absent buffer (R110). -/
def allowed (l : Bool) : Transition → Bool
  | .reset => true
  | .command .nop => true
  | .command (.ld4 _) => true
  | .command (.ld16 _) => true
  | .command .inc => l

/-- The discipline, one step at a time. -/
theorem disciplined_cons (l : Bool) (x : PortInput) (xs : List PortInput) :
    disciplined l (x :: xs) = (allowed l x.transition && disciplined (loadedAfter l x.transition) xs) := by
  rw [disciplined]
  cases x.transition with
  | reset => rfl
  | command i => cases i <;> rfl

/-- A step is allowed exactly when it completes. -/
theorem step_present_allowed_iff (x : PortInput) (s : State) :
    (∃ t, step (s.present x) = .next t) ↔ allowed s.loaded x.transition = true := by
  cases hx : x.transition with
  | reset => exact iff_of_true ⟨_, step_present_of_reset s hx⟩ rfl
  | command i =>
    rw [step_present_of_command s hx]
    cases i with
    | nop => exact iff_of_true ⟨_, exec_nop _⟩ rfl
    | ld4 q => exact iff_of_true ⟨_, exec_ld4 q _⟩ rfl
    | ld16 q => exact iff_of_true ⟨_, exec_ld16 q _⟩ rfl
    | inc =>
      have hloaded : s.loaded = true → ∃ t, exec .inc (s.advance s.inputs) = .next t :=
        fun hl => ⟨_, execInc_loaded (s := s.advance s.inputs) hl⟩
      exact ⟨fun ⟨_, h⟩ => (exec_inc_next h).1, hloaded⟩

theorem safeRun_cons_iff (x : PortInput) (xs : List PortInput) (s : State) :
    SafeRun (x :: xs) s ↔ ∃ t, step (s.present x) = .next t ∧ SafeRun xs t := by
  rw [SafeRun, runSteps_cons]
  refine ⟨fun ⟨_, h⟩ => ?_, fun ⟨t, hstep, hsafe⟩ => by rwa [hstep]⟩
  obtain ⟨t, hstep, hrun⟩ := andThen_eq_next h
  exact ⟨t, hstep, _, hrun⟩

/-- Settles O37, by induction on the steps: the first one completes exactly when it is allowed, and leaves in `LOADED`
what the discipline goes on with. -/
theorem runEndsExactlyWhenDisciplined : Obligations.RunEndsExactlyWhenDisciplined := by
  intro xs
  induction xs with
  | nil => exact fun s => iff_of_true ⟨s, rfl⟩ rfl
  | cons x xs ih =>
    intro s
    have hrest {t : State} (h : step (s.present x) = .next t) :
        SafeRun xs t ↔ disciplined (loadedAfter s.loaded x.transition) xs = true := by
      rw [ih, step_present_next_loaded h]
    rw [safeRun_cons_iff, disciplined_cons, Bool.and_eq_true, ← step_present_allowed_iff]
    exact ⟨fun ⟨t, h, hsafe⟩ => ⟨⟨t, h⟩, (hrest h).mp hsafe⟩, fun ⟨⟨t, h⟩, hd⟩ => ⟨t, h, (hrest h).mpr hd⟩⟩

/-! Runs of `INC`. -/

/-- `n` presented `INC` steps on a loaded buffer. -/
theorem runSteps_replicate_inc {s : State} (h : s.loaded = true) (n : Nat) :
    runSteps (List.replicate n (encode .inc)) s = .next (State.afterInc^[n] s) := by
  induction n generalizing s with
  | zero => rfl
  | succ n ih =>
    have hstep : step (s.present (encode .inc)) = .next s.afterInc := command_inc_of_loaded h
    rw [List.replicate_succ, runSteps_cons, hstep, andThen_next, ih (s := s.afterInc) h, Function.iterate_succ_apply]

theorem State.buffer?_afterInc {s : State} {b : Buffer} (h : s.buffer? = some b) :
    s.afterInc.buffer? = some b.incremented := by
  have hl : s.loaded = true := by rw [← State.buffer?_isSome, h, Option.isSome_some]
  rw [State.buffer?_of_loaded hl] at h
  cases h
  exact State.buffer?_of_loaded (s := s.afterInc) hl

theorem State.buffer?_afterInc_iterate {s : State} {b : Buffer} (h : s.buffer? = some b) (n : Nat) :
    (State.afterInc^[n] s).buffer? = some (Buffer.incremented^[n] b) := by
  induction n with
  | zero => exact h
  | succ n ih => rw [Function.iterate_succ_apply', Function.iterate_succ_apply', State.buffer?_afterInc ih]

/-- A command that leaves a buffer, then `n` `INC` steps. -/
theorem runSteps_encode_replicate_inc {i : Instr} {s t : State} {b : Buffer}
    (h : exec i (s.advance s.inputs) = .next t) (hb : t.buffer? = some b) (n : Nat) :
    ∃ u, runSteps (encode i :: List.replicate n (encode .inc)) s = .next u ∧
      u.buffer? = some (Buffer.incremented^[n] b) := by
  have hl : t.loaded = true := by rw [← State.buffer?_isSome, hb, Option.isSome_some]
  exact ⟨_, by rw [runSteps_encode_cons, h, andThen_next, runSteps_replicate_inc hl],
    State.buffer?_afterInc_iterate hb n⟩

/-! In each family the increments of the buffer are those of the sequence in it. -/

theorem Buffer.incremented_iterate_ipv4 (q : Bytes 4) (cells : Bytes 16) (n : Nat) :
    Buffer.incremented^[n] ⟨.ipv4, writeSeq q cells⟩ = ⟨.ipv4, writeSeq (inc^[n] q) cells⟩ := by
  induction n with
  | zero => rfl
  | succ n ih =>
    rw [Function.iterate_succ_apply', Function.iterate_succ_apply', ih, Buffer.incremented, readSeq_writeSeq,
      writeSeq_writeSeq]

theorem Buffer.incremented_iterate_ipv6 (q : Bytes 16) (n : Nat) :
    Buffer.incremented^[n] ⟨.ipv6, q⟩ = ⟨.ipv6, inc^[n] q⟩ := by
  induction n with
  | zero => rfl
  | succ n ih =>
    rw [Function.iterate_succ_apply', Function.iterate_succ_apply', ih, Buffer.incremented, readSeq_sixteen,
      writeSeq_sixteen]

/-- Settles O39: the load leaves a buffer, the `INC` steps increment it (`runSteps_encode_replicate_inc`), and `n`
increments of a sequence add `n` (`inc_iterate_eq_bytesOf`). -/
theorem loadThenIncrementsAddTheCount : Obligations.LoadThenIncrementsAddTheCount := by
  refine ⟨fun q n s => ?_, fun q n s => ?_⟩
  · obtain ⟨t, hrun, hb⟩ := runSteps_encode_replicate_inc (exec_ld4 q (s.advance s.inputs)) (State.buffer?_load ..) n
    exact ⟨t, hrun, by rw [hb, Buffer.incremented_iterate_ipv4, inc_iterate_eq_bytesOf]⟩
  · obtain ⟨t, hrun, hb⟩ := runSteps_encode_replicate_inc (exec_ld16 q (s.advance s.inputs)) (State.buffer?_load ..) n
    exact ⟨t, hrun, by rw [hb, Buffer.incremented_iterate_ipv6, inc_iterate_eq_bytesOf]⟩

end Sys2Proof.Machine
end

section
/-! PROOFS. The ends of the Network Generator (spec 42_host_generator.md R74, R86): the one error of construction, and
the block after exhaustion. -/

namespace Sys2Proof.Machine

/-! Construction from a text (R74). -/

theorem newGenerator_of_not_parsed {parse : String → Option Cidr} {text : String} (s : State)
    (h : parse text = none) : newGenerator parse text s = .error (.malformed text) := by
  rw [newGenerator, h]

theorem newGenerator_of_parsed {parse : String → Option Cidr} {text : String} {c : Cidr} (s : State)
    (h : parse text = some c) :
    newGenerator parse text s = if c.wf then .ok (construct c s) else .error (.malformed text) := by
  rw [newGenerator, h]

/-- Settles O42: by what the parser answers, and by whether what it answers is well formed. -/
theorem badTextIsAParseError : Obligations.BadTextIsAParseError := by
  intro parse text s
  refine ⟨⟨fun herr => ?_, ?_⟩, fun c hparse hc => by rw [newGenerator_of_parsed s hparse, if_pos hc]⟩
  · cases hparse : parse text with
    | none => exact .inl rfl
    | some c =>
      refine .inr ⟨c, rfl, Bool.eq_false_iff.mpr fun hc => ?_⟩
      rw [newGenerator_of_parsed s hparse, if_pos hc] at herr
      cases herr
  · rintro (hparse | ⟨c, hparse, hc⟩)
    · exact newGenerator_of_not_parsed s hparse
    · rw [newGenerator_of_parsed s hparse, if_neg (Bool.eq_false_iff.mp hc)]

/-! The block after exhaustion (R86). -/

theorem Generator.counted_iterate_block (g : Generator) (n : Nat) :
    (Generator.counted^[n] g).block = State.afterInc^[n] g.block := by
  induction n with
  | zero => rfl
  | succ n ih => rw [Function.iterate_succ_apply', Function.iterate_succ_apply', Generator.counted_block, ih]

/-- Once every address has been emitted the later calls return the sentinel and change nothing (R78). -/
theorem construct_nextCalls_exhausted {c : Cidr} {s : State} {g : Generator} (h : construct c s = .next g) (m : Nat) :
    ∃ vs, g.nextCalls (networkCount c + m) = .next (vs, Generator.counted^[networkCount c] g) := by
  obtain ⟨-, -, hcount⟩ := construct_next h
  have hzero : (Generator.counted^[networkCount c] g).remaining = 0 := by
    rw [g.counted_iterate_remaining, hcount, Nat.sub_self]
  exact ⟨_, Generator.nextCalls_add (construct_nextCalls h (Nat.le_refl _)) (exhaustedNextChangesNothing _ hzero m)⟩

/-- The address one past the end of `n` addresses is all zeros exactly when the last of them is all ones. -/
theorem bytesOf_past_end_eq_zero_iff {W n : Nat} {q : Bytes W} (hpos : 0 < n) (hend : val q + n ≤ 2 ^ (8 * W)) :
    bytesOf W ((val q + n) % 2 ^ (8 * W)) = bytesOf W 0 ↔ val q + (n - 1) = 2 ^ (8 * W) - 1 := by
  have hzero : bytesOf W ((val q + n) % 2 ^ (8 * W)) = bytesOf W 0 ↔ (val q + n) % 2 ^ (8 * W) = 0 := by
    refine ⟨fun h => ?_, congrArg (bytesOf W)⟩
    have hv := congrArg val h
    rwa [val_bytesOf, val_bytesOf, Nat.mod_mod, Nat.zero_mod] at hv
  rw [hzero]
  obtain hlt | heq := Nat.lt_or_eq_of_le hend
  · rw [Nat.mod_eq_of_lt hlt]
    omega
  · rw [heq, Nat.mod_self]
    omega

/-- The all-zeros address of an address's family. -/
def allZeros : Address → Address
  | .ipv4 _ => .ipv4 (bytesOf 4 0)
  | .ipv6 _ => .ipv6 (bytesOf 16 0)

theorem addressAfter_eq_allZeros_iff {n : Nat} {x : Address} (hpos : 0 < n) (hend : addressValue x + n ≤ 2 ^ x.bits) :
    addressAfter n x = allZeros x ↔ addressValue x + (n - 1) = 2 ^ x.bits - 1 := by
  cases x with
  | ipv4 q =>
    rw [addressAfter, allZeros, Address.ipv4.injEq]
    exact bytesOf_past_end_eq_zero_iff (W := 4) hpos hend
  | ipv6 q =>
    rw [addressAfter, allZeros, Address.ipv6.injEq]
    exact bytesOf_past_end_eq_zero_iff (W := 16) hpos hend

/-- The address one past a network's end is all zeros exactly when the network ends at the all-ones address. -/
theorem past_end_eq_allZeros_iff {c : Cidr} (hc : c.wf = true) :
    addressAfter (networkCount c) (networkBase c) = allZeros (networkBase c) ↔
      addressValue (networkBase c) + (2 ^ ((networkBase c).bits - c.prefixLen) - 1) =
        2 ^ (networkBase c).bits - 1 := by
  have hend := addressValue_networkBase_add_le hc
  rw [← bits_networkBase] at hend
  rw [addressAfter_eq_allZeros_iff (networkCount_pos c) hend, networkCount, bits_networkBase]

/-- Settles O48: the calls end in the generator counted `N` times (`construct_nextCalls_exhausted`), whose block is the
one after `N` `INC` steps and holds the address `N` above the base. -/
theorem bufferAfterExhaustionIsOnePastTheEnd : Obligations.BufferAfterExhaustionIsOnePastTheEnd := by
  intro c s g hc h m
  obtain ⟨hl, hbase, -⟩ := construct_next h
  obtain ⟨vs, hcalls⟩ := construct_nextCalls_exhausted h m
  have haddr : (Generator.counted^[networkCount c] g).block.buffer?.map Buffer.address =
      some (addressAfter (networkCount c) (networkBase c)) := by
    rw [State.buffer?_map_address ((g.counted_iterate_loaded _).trans hl) 0, Generator.counted_iterate_sample hl, hbase]
  have hrun : runSteps (List.replicate (networkCount c) (encode .inc)) g.block =
      .next (Generator.counted^[networkCount c] g).block := by
    rw [runSteps_replicate_inc hl, Generator.counted_iterate_block]
  have hzeros := past_end_eq_allZeros_iff hc
  rw [← Option.some_inj, ← haddr] at hzeros
  refine ⟨vs, _, hcalls, haddr, hrun, fun q hq => ?_, fun q hq => ?_⟩
  · rw [hq] at hzeros
    exact hzeros
  · rw [hq] at hzeros
    exact hzeros

end Sys2Proof.Machine
end
